-- ==== Sys2Proof/Word.lean ====
section
/-! DEFINITION. The word types of the EMU16 core (00_scope.md R4, R5): bytes, 16-bit words, 4-bit fields. -/

namespace Sys2Proof

/-- A byte: 8 bits, one memory cell, a channel address, or half a register. -/
abbrev Byte := BitVec 8

/-- A word: 16 bits, the register and data-path width XLEN (00_scope.md R4). -/
abbrev Word := BitVec 16

/-- A nibble: 4 bits, an instruction field (30_encoding.md R90). -/
abbrev Nibble := BitVec 4

/-- A register index 0..15; every value of the 4-bit field names a register (30_encoding.md R96). -/
abbrev Reg := BitVec 4

/-- The index of the instruction pointer, IPREG = 15 (00_scope.md R4, 10_state.md R23). -/
abbrev ipReg : Reg := 15

end Sys2Proof
end

