-- ==== Sys2Proof/Machine/Bytes.lean ====
section
/-! DEFINITION. The two bytes of a word and the order they lie in (00_scope.md R6, 10_state.md R21, 20_memory.md R66). -/

namespace Sys2Proof.Machine

/-- `v.H`, bits 15..8 of a word. -/
def highByte (v : Word) : Byte := v.extractLsb' 8 8

/-- `v.L`, bits 7..0 of a word. -/
def lowByte (v : Word) : Byte := v.extractLsb' 0 8

/-- `{hi, lo}`: the word `(High << 8) | Low` (10_state.md R21). -/
def wordOf (hi lo : Byte) : Word := hi ++ lo

/-- `v.H <- b`: the high byte replaced, the low byte kept (00_scope.md R6). -/
def withHighByte (v : Word) (b : Byte) : Word := wordOf b (lowByte v)

/-- `v.L <- b`: the low byte replaced, the high byte kept (00_scope.md R6). -/
def withLowByte (v : Word) (b : Byte) : Word := wordOf (highByte v) b

/-- Bits 7..4 of a byte. -/
def highNibble (b : Byte) : Nibble := b.extractLsb' 4 4

/-- Bits 3..0 of a byte. -/
def lowNibble (b : Byte) : Nibble := b.extractLsb' 0 4

/-- The byte whose bits 7..4 are `hi` and bits 3..0 are `lo`. -/
def byteOf (hi lo : Nibble) : Byte := hi ++ lo

end Sys2Proof.Machine
end

