-- ==== Sys2Proof/Syntax.lean ====
section
/-! DEFINITION. The sixteen instructions of the EMU16 core, one constructor per row of spec/opcode_table.json. -/

namespace Sys2Proof

/-- An instruction. `a`, `b`, `c` are the fields arg1, arg2, arg3 of 30_encoding.md R90; a field that an instruction
ignores (arg3 of NOT) or only tests for zero (arg3 of LOAD, STORE) is kept, so that no bit of an encoding is lost. -/
inductive Instr where
  /-- LOAD (R141): destination register, address register, size flag. -/
  | load (a b : Reg) (c : Nibble)
  /-- STORE (R142): data register, address register, size flag. -/
  | store (a b : Reg) (c : Nibble)
  /-- SET (R143): destination register and the big-endian word after the opcode byte. -/
  | set (a : Reg) (imm : Word)
  /-- WBUS (R165): bus driver register. -/
  | wbus (a : Reg)
  /-- SBUS (R166): bus driver register. -/
  | sbus (a : Reg)
  /-- RBUS (R167): bus driver register. -/
  | rbus (a : Reg)
  /-- LJUMP (R191): left comparand, right comparand, target register. -/
  | ljump (a b c : Reg)
  /-- EJUMP (R192): left comparand, right comparand, target register. -/
  | ejump (a b c : Reg)
  /-- ADD (R201): destination, addends. -/
  | add (a b c : Reg)
  /-- SUB (R202): destination, minuend, subtrahend. -/
  | sub (a b c : Reg)
  /-- SHL (R203): destination, value, register of the shift amount. -/
  | shl (a b c : Reg)
  /-- SHR (R204): destination, value, register of the shift amount. -/
  | shr (a b c : Reg)
  /-- AND (R205): destination, sources. -/
  | and (a b c : Reg)
  /-- OR (R206): destination, sources. -/
  | or (a b c : Reg)
  /-- NOT (R207): destination, source, and an ignored field. -/
  | not (a b : Reg) (c : Nibble)
  /-- XOR (R208): destination, sources. -/
  | xor (a b c : Reg)
deriving DecidableEq, Repr

end Sys2Proof
end

