-- ==== Sys2Proof/Config.lean ====
section
/-! DEFINITION. The implementation parameters of 00_scope.md R4 as plain data, and the free values of the points the
spec leaves open. -/

namespace Sys2Proof

/-- What the platform fixes about the core when the machine is built (00_scope.md R4, 10_state.md R26). -/
structure Config where
  /-- `S`, the memory size in bytes (10_state.md R28). -/
  memSize : Nat
  /-- `TICK`, the tick period in milliseconds; no rule's result depends on it (00_scope.md R4). -/
  tickPeriod : Nat
deriving DecidableEq, Repr

/-- What the platform fixes about one bus channel (00_scope.md R4, 10_state.md R31). -/
structure ChannelParams where
  /-- The channel address, a member of `CHANNELS`. -/
  addr : Byte
  /-- `OUT_CAP[c]`, in words; 0 means rendezvous. -/
  outCap : Nat
  /-- `IN_CAP[c]`, in words; 0 means rendezvous. -/
  inCap : Nat
deriving DecidableEq, Repr

/-- The boot medium, "the immutable source of the initial memory image and initial IP" (10_state.md R30). -/
structure BootMedium where
  /-- `offset`, the destination base in memory. -/
  offset : Word
  /-- `start`, the initial IP. -/
  start : Word
  /-- The image bytes; `length` is how many there are. -/
  image : List Byte
deriving DecidableEq, Repr

/-- `length()` of the boot medium (10_state.md R30). -/
def BootMedium.length (b : BootMedium) : Nat := b.image.length

/-- The default memory size and tick period (00_scope.md R4: 16 KiB, 200 ms). -/
def Config.reference : Config := { memSize := 16384, tickPeriod := 200 }

/-- The reference platform's channels raw (0), tty (1), done (2) (10_state.md R33).
DESIGN CHOICE (unsafe for a claim about State.reset alone): capacity 2 of the reference values 0 and 2, log entry 4. -/
def Config.referenceChannels : List ChannelParams :=
  [{ addr := 0, outCap := 2, inCap := 2 }, { addr := 1, outCap := 2, inCap := 2 }, { addr := 2, outCap := 2, inCap := 2 }]

/-- The empty medium at address 0 that State.reset holds.
DESIGN CHOICE (unsafe for a claim about State.reset alone): `BOOT` is supplied per run, log entry 5. -/
def BootMedium.empty : BootMedium := { offset := 0, start := 0, image := [] }

/-- `MEM_INIT`: what every memory byte holds before boot (00_scope.md R4, the spec's decision D2).
DESIGN CHOICE (unsafe): log entry 2. -/
def Config.memInit : Byte := 0

/-- FREE VALUE. The n-th answer of `which()`: a number, taken modulo how many channels are ready, that picks one of them
(42_bus.md R162, `WHICH_POLICY`). No body: any ready channel, anew each time.
DESIGN CHOICE (safe): log entry 8. -/
opaque Config.whichPick : Nat → Nat

/-- FREE VALUE. How many events at the wait point, ticks and moves of the other agents, go before a pending interrupt is taken
(40_fetch_execute.md R127: tick or interrupt may be taken, the interrupt after finitely many further instructions).
DESIGN CHOICE (safe): log entry 9. -/
opaque Config.irqLatency : Nat

/-- FREE VALUE. Whether another agent moves before the boot sequencer copies the byte of an index, with so many moves of the
script still to come (60_exceptions.md R242 (d): an interrupt can be raised during the copy). Each pair of arguments is met at
most once in a run, so every order of the two is some answer.
DESIGN CHOICE (safe): log entry 35. -/
opaque Config.bootYields (index movesLeft : Nat) : Bool

end Sys2Proof
end

