-- ==== Sys2Proof/WellFormed.lean ====
section
/-! DEFINITION. Which instructions and which platform parameters the spec admits. -/

namespace Sys2Proof

/-- Every instruction is well-formed: "No encoding is illegal or reserved", every value of every field is accepted
(30_encoding.md R96, R97, R98). The widths of the fields are carried by the types of `Instr`. -/
def Instr.wellFormed (i : Instr) : Bool :=
  match i with
  | .load _ _ _ => true
  | .store _ _ _ => true
  | .set _ _ => true
  | .wbus _ => true
  | .sbus _ => true
  | .rbus _ => true
  | .ljump _ _ _ => true
  | .ejump _ _ _ => true
  | .add _ _ _ => true
  | .sub _ _ _ => true
  | .shl _ _ _ => true
  | .shr _ _ _ => true
  | .and _ _ _ => true
  | .or _ _ _ => true
  | .not _ _ _ => true
  | .xor _ _ _ => true

/-- The spelling of 30_encoding.md R100: the byte forms of LOAD and STORE are written with arg3 = 1 and NOT with arg3 = 0.
The core accepts every spelling; this is notation of the spec (its decision D19), and no meaning depends on it. -/
def Instr.canonical (i : Instr) : Bool :=
  match i with
  | .load _ _ c => c == 0 || c == 1
  | .store _ _ c => c == 0 || c == 1
  | .not _ _ c => c == 0
  | .set _ _ | .wbus _ | .sbus _ | .rbus _ | .ljump _ _ _ | .ejump _ _ _ | .add _ _ _ | .sub _ _ _
  | .shl _ _ _ | .shr _ _ _ | .and _ _ _ | .or _ _ _ | .xor _ _ _ => true

/-- The memory size is at most 65536 (00_scope.md R4, 10_state.md R28). -/
def Config.wellFormed (cfg : Config) : Bool := cfg.memSize ≤ 65536

/-- The channel addresses are distinct (10_state.md R31); the model lists them in rising order, log entry 26. -/
def channelsWellFormed (l : List ChannelParams) : Bool :=
  match l with
  | [] => true
  | [_] => true
  | p :: q :: rest => p.addr < q.addr && channelsWellFormed (q :: rest)

end Sys2Proof
end

