-- ==== Sys2Proof/Decode.lean ====
section
/-! DEFINITION. The decoder of 30_encoding.md (R90 to R98), the encoder written from the same tables, and the host's view of
the opcode table. -/

namespace Sys2Proof

open Machine

/-- Bits 15..12 of the instruction word (30_encoding.md R90). -/
def opcodeField (insn : Word) : Nibble := insn.extractLsb' 12 4

/-- arg1, bits 11..8 (30_encoding.md R90). -/
def arg1Field (insn : Word) : Nibble := insn.extractLsb' 8 4

/-- arg2, bits 7..4 (30_encoding.md R90). -/
def arg2Field (insn : Word) : Nibble := insn.extractLsb' 4 4

/-- arg3, bits 3..0 (30_encoding.md R90). -/
def arg3Field (insn : Word) : Nibble := insn.extractLsb' 0 4

/-- The length in bytes that the opcode nibble alone decides (30_encoding.md R92). -/
def lengthOfOpcode (op : Nibble) : Nat :=
  match op.toNat with
  | 2 => 3
  | 3 => 1
  | 4 => 1
  | 5 => 1
  | _ => 2

/-- The decoder proper: total on the 16-bit instruction word (40_fetch_execute.md R122, the opcode map of 30_encoding.md
R95) and the byte after it, which only SET uses, as the low byte of its immediate (R91, R94). The last arm is opcode 15. -/
def decodeInsn (insn : Word) (third : Byte) : Instr :=
  let a := arg1Field insn
  let b := arg2Field insn
  let c := arg3Field insn
  match (opcodeField insn).toNat with
  | 0 => .load a b c
  | 1 => .store a b c
  | 2 => .set a (wordOf (lowByte insn) third)
  | 3 => .wbus a
  | 4 => .sbus a
  | 5 => .rbus a
  | 6 => .ljump a b c
  | 7 => .ejump a b c
  | 8 => .add a b c
  | 9 => .sub a b c
  | 10 => .shl a b c
  | 11 => .shr a b c
  | 12 => .and a b c
  | 13 => .or a b c
  | 14 => .not a b c
  | _ => .xor a b c

/-- Why a list of bytes is no instruction. No bit pattern is illegal (30_encoding.md R97): only bytes can be missing. -/
inductive DecodeError where
  /-- There is no first byte. -/
  | noBytes
  /-- The opcode asks for more bytes than there are. -/
  | truncated (opcode : Nibble) (needed given : Nat)
deriving DecidableEq, Repr

/-- Decode the instruction at the head of a list of bytes, total on any list. An instruction needs the bytes of its own
length only (30_encoding.md R91, R92); what stands after them is ignored. -/
def decode (bytes : List Byte) : Except DecodeError Instr :=
  match bytes with
  | [] => .error .noBytes
  | b0 :: rest =>
    let needed := lengthOfOpcode (highNibble b0)
    if bytes.length < needed then .error (.truncated (highNibble b0) needed bytes.length)
    else .ok (decodeInsn (wordOf b0 (rest.getD 0 0)) (rest.getD 1 0))

/-- The opcode of an instruction (30_encoding.md R95). -/
def Instr.opcode (i : Instr) : Nibble :=
  match i with
  | .load _ _ _ => 0x0
  | .store _ _ _ => 0x1
  | .set _ _ => 0x2
  | .wbus _ => 0x3
  | .sbus _ => 0x4
  | .rbus _ => 0x5
  | .ljump _ _ _ => 0x6
  | .ejump _ _ _ => 0x7
  | .add _ _ _ => 0x8
  | .sub _ _ _ => 0x9
  | .shl _ _ _ => 0xA
  | .shr _ _ _ => 0xB
  | .and _ _ _ => 0xC
  | .or _ _ _ => 0xD
  | .not _ _ _ => 0xE
  | .xor _ _ _ => 0xF

/-- Format R, `oooo aaaa bbbb cccc` (30_encoding.md R91). -/
def formatR (op a b c : Nibble) : List Byte := [byteOf op a, byteOf b c]

/-- Format B, `oooo aaaa` (30_encoding.md R91). -/
def formatB (op a : Nibble) : List Byte := [byteOf op a]

/-- Format I, `oooo aaaa` and the immediate, high byte first (30_encoding.md R91). -/
def formatI (op a : Nibble) (imm : Word) : List Byte := [byteOf op a, highByte imm, lowByte imm]

/-- The bytes of an instruction in the order memory holds them (30_encoding.md R91, R95). -/
def encode (i : Instr) : List Byte :=
  match i with
  | .load a b c => formatR 0x0 a b c
  | .store a b c => formatR 0x1 a b c
  | .set a imm => formatI 0x2 a imm
  | .wbus a => formatB 0x3 a
  | .sbus a => formatB 0x4 a
  | .rbus a => formatB 0x5 a
  | .ljump a b c => formatR 0x6 a b c
  | .ejump a b c => formatR 0x7 a b c
  | .add a b c => formatR 0x8 a b c
  | .sub a b c => formatR 0x9 a b c
  | .shl a b c => formatR 0xA a b c
  | .shr a b c => formatR 0xB a b c
  | .and a b c => formatR 0xC a b c
  | .or a b c => formatR 0xD a b c
  | .not a b c => formatR 0xE a b c
  | .xor a b c => formatR 0xF a b c

/-- An instruction of the opcode table as the bytes memory holds, for the host. The table numbers the bits of the 16-bit word
`insn = {mem[pc], mem[pc+1]}` (its note on every row), so bits 15..8 are the byte at the lower address; bits 23..16 are the
third byte. A 1-byte row given as 8 bits is its one byte. Log entry 23. -/
def tableBytes (nbits w : Nat) : List Byte :=
  if nbits ≤ 8 ∧ w < 256 then [BitVec.ofNat 8 w, 0, 0]
  else [BitVec.ofNat 8 (w / 256), BitVec.ofNat 8 w, BitVec.ofNat 8 (w / 65536)]

/-- The instruction the decoder reads from a word of the opcode table, for the host. -/
def decodeTableWord (nbits w : Nat) : Option Instr :=
  match decode (tableBytes nbits w) with
  | .ok i => some i
  | .error _ => none

end Sys2Proof
end

