-- ==== Sys2Proof/Machine/State.lean ====
section
/-! DEFINITION. The state of the machine (10_state.md), the reasons a step can stop, and the state right after reset. -/

namespace Sys2Proof.Machine

/-- The fault kinds an instruction can raise, each with what it records (60_exceptions.md R231, R232). They are reported
outward and execution goes on (R237): they are data of the machine, not outcomes that stop it. -/
inductive InstrFault where
  /-- `Segfault(base, offset)`, the pair as passed to the memory operation (20_memory.md R65). -/
  | segfault (base offset : Word)
  /-- `InvalidBusAddress(c)` (42_bus.md R160, R161). -/
  | invalidBusAddress (c : Byte)
deriving DecidableEq, Repr

/-- A fault report `(kind, opcode, ip, info)` (10_state.md R36): `kind` and `info` are the fault's, `opcode` is absent when
the fault is the fetch itself. -/
structure FaultReport where
  fault : InstrFault
  opcode : Option Nibble
  ip : Word
deriving DecidableEq, Repr

/-- The run state (10_state.md R35). The states in the middle of something carry what the core must hold to finish it. -/
inductive RunState where
  /-- Constructed, boot not started. -/
  | reset
  /-- The boot copy is in progress; `index` is the next image byte to copy. -/
  | booting (index : Nat)
  /-- Boot aborted; final. -/
  | bootFailed
  /-- Between the wait point and the end of the next instruction. -/
  | running
  /-- Inside SBUS, held until channel `c` accepts `word`. -/
  | suspendedSend (c : Byte) (word : Word)
  /-- Inside RBUS, held until channel `c` supplies a word for register `k`. -/
  | suspendedRecv (c : Byte) (k : Reg)
  /-- At the wait for a tick or an interrupt. -/
  | waiting
  /-- The run loop has ended; final. -/
  | terminated
deriving DecidableEq, Repr

/-- One bus channel (10_state.md R31, R32). -/
structure Channel where
  /-- Address and capacities, fixed for a run. -/
  params : ChannelParams
  /-- `in[c]`: the words the peripheral has offered and the core has not yet received, oldest first. -/
  inbound : List Word
  /-- `out[c]`: the words the core has sent and the peripheral has not yet taken, oldest first. -/
  outbound : List Word
  /-- For capacity 0: the peripheral is at this moment receiving (42_bus.md R160). -/
  receiving : Bool
  /-- How many inbound words the core has consumed (40_fetch_execute.md R130). -/
  consumed : Nat
deriving DecidableEq, Repr

/-- The interrupt record `(BusAddr, Handler)`; the core never looks inside it (10_state.md R34). -/
structure IrqRecord where
  busAddr : Byte
  handler : Word
deriving DecidableEq, Repr

/-- A move of another agent (40_fetch_execute.md R131): the peripherals, the tick source, the harness. -/
inductive EnvMove where
  /-- The tick source: a tick (10_state.md R37). -/
  | tick
  /-- The harness starts boot (10_state.md R35). -/
  | startBoot
  /-- A peripheral or the harness writes an interrupt record to the sink (60_exceptions.md R239). -/
  | interrupt (record : IrqRecord)
  /-- The sink is closed (60_exceptions.md R240). -/
  | closeSink
  /-- The peripheral of channel `c` offers a word (10_state.md R32). -/
  | offer (c : Byte) (word : Word)
  /-- The peripheral of channel `c` takes the oldest outbound word, or waits for one (42_bus.md R160). -/
  | take (c : Byte)
deriving DecidableEq, Repr

/-- Memory: the cells that differ from `Config.memInit`, addresses strictly rising. -/
abbrev Memory := List Host.Cell

/-- The state of the machine: all that 10_state.md gives it, the outputs of 40_fetch_execute.md R130, and three fields of the
model's own (`env`, `whichCount`, `irqPassed`). -/
structure State where
  /-- The register file `x[0]`..`x[15]`; `x[15]` is the instruction pointer (R20, R23). -/
  regs : Vector Word 16
  /-- Memory (R28). -/
  mem : Memory
  /-- Memory size and tick period, fixed for a run (00_scope.md R4). -/
  cfg : Config
  /-- The boot medium (R30). -/
  boot : BootMedium
  /-- The bus channels, by rising address (R31). -/
  channels : List Channel
  /-- `irq_pending` (R34). -/
  irqPending : Bool
  /-- The run state (R35). -/
  runState : RunState
  /-- The fault reports, oldest first (R36). -/
  reports : List FaultReport
  /-- The words the core has sent, each with its channel, oldest first (40_fetch_execute.md R130, 42_bus.md R168). -/
  sent : List (Byte × Word)
  /-- MODEL's own: the moves of the other agents still to come, oldest first. Log entry 6. -/
  env : List EnvMove
  /-- MODEL's own: how many values of `Config.whichPick` have been used. Log entry 8. -/
  whichCount : Nat
  /-- MODEL's own: how many events of the script went, at the wait point, before a pending interrupt. Log entry 9. -/
  irqPassed : Nat
deriving DecidableEq, Repr

/-- Why the machine stops. Every other failure of the machine is reported and execution goes on (60_exceptions.md R237). -/
inductive Fault where
  /-- `ModelFault(RegIndexOutOfRange)`: raised by WBUS, SBUS and RBUS when the low byte `k` of the bus driver register is 16
  or more and so names no register (42_bus.md R163, 60_exceptions.md R251). Safe: the model gives the run no meaning there. -/
  | regIndexOutOfRange (k : Byte)
deriving DecidableEq, Repr

/-- Why an instruction has no meaning. -/
inductive Refusal where
  /-- Raised by `exec`'s arm of an instruction that the model does not give a meaning; no arm does so now. Safe. -/
  | notModelled (mnemonic : String)
deriving DecidableEq, Repr

/-- What a step or a meaning answers. -/
abbrev Result := Host.Outcome State Fault Refusal

/-- A channel at reset: both FIFOs empty (10_state.md R39, the spec's decision D3), the peripheral not receiving.
DESIGN CHOICE (unsafe): log entry 3. -/
def Channel.reset (p : ChannelParams) : Channel :=
  { params := p, inbound := [], outbound := [], receiving := false, consumed := 0 }

/-- The machine after construction and before boot (10_state.md R39), on the platform with the given parameters.
DESIGN CHOICE (unsafe): the register, memory, FIFO and interrupt values are the spec's decisions D1 to D3, log entries 1, 2, 3;
the values of the model's own fields are log entries 6, 8, 9. -/
def State.resetWith (cfg : Config) (channels : List ChannelParams) (boot : BootMedium) : State :=
  { regs := Vector.replicate 16 0
    mem := []
    cfg := cfg
    boot := boot
    channels := channels.map Channel.reset
    irqPending := false
    runState := .reset
    reports := []
    sent := []
    env := []
    whichCount := 0
    irqPassed := 0 }

/-- The machine right after reset, on the reference platform with an empty boot medium.
DESIGN CHOICE (unsafe for a claim about this state alone): log entries 4 and 5. -/
def State.reset : State := State.resetWith Config.reference Config.referenceChannels BootMedium.empty

end Sys2Proof.Machine
end

