-- ==== Sys2Proof/Machine/Memory.lean ====
section
/-! DEFINITION. Memory as a canonical list of cells, and the four memory operations of 20_memory.md (R60 to R65). -/

namespace Sys2Proof.Machine

/-- What the cell at `a` holds; a cell the list does not name holds `Config.memInit` (00_scope.md R4). -/
def Memory.read (m : Memory) (a : Nat) : Byte :=
  match m with
  | [] => Config.memInit
  | (b, v) :: rest => if a = b then v else Memory.read rest a

/-- The list with `(a, v)` at its place, and with no cell for `a` when `v` is what an unlisted cell holds. -/
def Memory.write (m : Memory) (a : Nat) (v : Byte) : Memory :=
  match m with
  | [] => if v = Config.memInit then [] else [(a, v)]
  | (b, w) :: rest =>
    if a < b then (if v = Config.memInit then (b, w) :: rest else (a, v) :: (b, w) :: rest)
    else if a = b then (if v = Config.memInit then rest else (a, v) :: rest)
    else (b, w) :: Memory.write rest a v

/-- Every listed address is above `lo` or there is no lower bound, addresses rise, and no cell holds `Config.memInit`. -/
def Memory.wfAbove (lo : Option Nat) (m : Memory) : Bool :=
  match m with
  | [] => true
  | (a, v) :: rest => (match lo with | none => true | some l => decide (l < a)) && v != Config.memInit && Memory.wfAbove (some a) rest

/-- The canonical form: addresses strictly rising, no cell equal to what an unlisted one holds. Equal memories are equal
lists. -/
def Memory.wf (m : Memory) : Bool := Memory.wfAbove none m

/-- The byte at an address, whatever the memory size. -/
def State.byteAt (s : State) (a : Nat) : Byte := Memory.read s.mem a

/-- `base + offset` as a natural number, without wrap (20_memory.md R60, R62). -/
def effectiveAddress (base offset : Word) : Nat := base.toNat + offset.toNat

/-- `MemRead(addr, 1)` (00_scope.md R7): nothing when `addr >= S`. -/
def State.memRead8 (s : State) (addr : Nat) : Option Byte :=
  if addr ≥ s.cfg.memSize then none else some (s.byteAt addr)

/-- `MemRead(addr, 2)`, big-endian (00_scope.md R7): nothing when `addr + 1 >= S`. -/
def State.memRead16 (s : State) (addr : Nat) : Option Word :=
  if addr + 1 ≥ s.cfg.memSize then none else some (wordOf (s.byteAt addr) (s.byteAt (addr + 1)))

/-- The cell at `addr` replaced. -/
def State.setByte (s : State) (addr : Nat) (v : Byte) : State := { s with mem := Memory.write s.mem addr v }

/-- `MemWrite(addr, 1, v)` (00_scope.md R7): nothing when `addr >= S`. -/
def State.memWrite8 (s : State) (addr : Nat) (v : Byte) : Option State :=
  if addr ≥ s.cfg.memSize then none else some (s.setByte addr v)

/-- `MemWrite(addr, 2, v)`, high byte at the lower address (00_scope.md R7): nothing when `addr + 1 >= S`. -/
def State.memWrite16 (s : State) (addr : Nat) (v : Word) : Option State :=
  if addr + 1 ≥ s.cfg.memSize then none
  else some ((s.setByte addr (highByte v)).setByte (addr + 1) (lowByte v))

/-- `Load8(base, offset)` (20_memory.md R60). -/
def load8 (base offset : Word) (s : State) : Except InstrFault Byte :=
  match s.memRead8 (effectiveAddress base offset) with
  | some v => .ok v
  | none => .error (.segfault base offset)

/-- `Load16(base, offset)` (20_memory.md R63). -/
def load16 (base offset : Word) (s : State) : Except InstrFault Word :=
  match s.memRead16 (effectiveAddress base offset) with
  | some v => .ok v
  | none => .error (.segfault base offset)

/-- `Save8(base, offset, byte)` (20_memory.md R61). -/
def save8 (base offset : Word) (v : Byte) (s : State) : Except InstrFault State :=
  match s.memWrite8 (effectiveAddress base offset) v with
  | some t => .ok t
  | none => .error (.segfault base offset)

/-- `Save16(base, offset, word)` (20_memory.md R64). -/
def save16 (base offset : Word) (v : Word) (s : State) : Except InstrFault State :=
  match s.memWrite16 (effectiveAddress base offset) v with
  | some t => .ok t
  | none => .error (.segfault base offset)

end Sys2Proof.Machine
end

