-- ==== Sys2Proof/Machine/Ops.lean ====
section
/-! DEFINITION. The operations every instruction shares: registers, the IP advance, the wait point, taking a fault, fetch. -/

namespace Sys2Proof.Machine

/-- `x[r]` (00_scope.md R6). -/
def State.reg (s : State) (r : Reg) : Word := s.regs[r.toNat]'r.isLt

/-- `x[r] <- v`, the whole word (00_scope.md R6). No register is hard-wired (10_state.md R20). -/
def State.setReg (s : State) (r : Reg) (v : Word) : State := { s with regs := s.regs.set r.toNat v r.isLt }

/-- `pc`, another name of `x[15]` (10_state.md R23). -/
def State.ip (s : State) : Word := s.reg ipReg

/-- `pc <- v`. -/
def State.setIp (s : State) (v : Word) : State := s.setReg ipReg v

/-- `x[15] <- (x[15] + w) mod 2^16`, reading `x[15]` as the effect left it (40_fetch_execute.md R124; the wrap is the spec's
decision D9, log entry 15). -/
def advanceIp (w : Nat) (s : State) : State := s.setIp (BitVec.ofNat 16 (s.ip.toNat + w))

/-- The core reaches the wait point of the iteration (40_fetch_execute.md R127). -/
def toWaitPoint (s : State) : State := { s with runState := .waiting }

/-- The end of an iteration that raised nothing: the IP advance, then the wait (40_fetch_execute.md R129). -/
def retired (w : Nat) (s : State) : State := toWaitPoint (advanceIp w s)

/-- A meaning's answer when its effect has run and left `s`. -/
def retire (w : Nat) (s : State) : Result := .next (retired w s)

/-- A fault report appended to the output (10_state.md R36). It never suspends the core (decision D11, log entry 16). -/
def emitReport (r : FaultReport) (s : State) : State := { s with reports := s.reports ++ [r] }

/-- The state after an instruction at `ip0 = pc` has faulted having changed nothing: `pc` is advanced by the width `w`, the
report goes out, the core goes to the wait point. Nothing is saved, no mode or mask changes, no vector is read
(60_exceptions.md R237, R238; 40_fetch_execute.md R125, R126). The report carries `ip0` (decision D10, log entry 16). -/
def faulted (op : Option Nibble) (f : InstrFault) (w : Nat) (s : State) : State :=
  toWaitPoint (emitReport { fault := f, opcode := op, ip := s.ip } (advanceIp w s))

/-- TAKING A FAULT, the one operation for it. There is no handler and so no return from one (60_exceptions.md R243). -/
def takeFault (op : Option Nibble) (f : InstrFault) (w : Nat) (s : State) : Result := .next (faulted op f w s)

/-- The core is suspended inside an instruction, nothing else changed (40_fetch_execute.md R128). -/
def suspend (r : RunState) (s : State) : State := { s with runState := r }

/-- Fetch: `Load16(x[15], 0)` (40_fetch_execute.md R121). -/
def fetchWord (s : State) : Except InstrFault Word := load16 s.ip 0 s

/-- The byte after the fetched word, which the decoder gives to SET as its immediate's low byte. Where it is beyond memory
no value of it is ever used, since SET faults there (41_load_store_set.md R143); log entry 22. -/
def thirdByte (s : State) : Byte := (s.memRead8 (s.ip.toNat + 2)).getD 0

/-- Fetch and decode; decode cannot fail (40_fetch_execute.md R122). -/
def fetchInstr (s : State) : Except InstrFault Instr :=
  match fetchWord s with
  | .ok insn => .ok (decodeInsn insn (thirdByte s))
  | .error f => .error f

/-- The state after a failed fetch: a fault without an opcode, at the default width 2 (40_fetch_execute.md R125). -/
def fetchFaulted (f : InstrFault) (s : State) : State := faulted none f 2 s

/-- The bytes stored from `addr` on, those inside memory only (for `State.withFetchWord`). -/
def storeBytes (bytes : List Byte) (addr : Nat) (s : State) : State :=
  match bytes with
  | [] => s
  | b :: rest => storeBytes rest (addr + 1) ((s.memWrite8 addr b).getD s)

/-- The state `s`, running, with the bytes of an instruction where the next fetch reads them. -/
def State.withBytesAtIp (s : State) (bytes : List Byte) : State :=
  { storeBytes bytes s.ip.toNat s with runState := .running }

end Sys2Proof.Machine
end

