-- ==== Sys2Proof/Machine/Alu.lean ====
section
/-! DEFINITION. ADD, SUB, SHL, SHR, AND, OR, NOT, XOR (44_alu.md R200 to R209). -/

namespace Sys2Proof.Machine

/-- The end every ALU instruction shares: the whole-word result to `x[a]`, width 2, no flag, no fault (R200). -/
def aluResult (a : Reg) (v : Word) (s : State) : Result := retire 2 (s.setReg a v)

/-- `(x + y) mod 2^16` (R201). -/
def aluAdd (x y : Word) : Word := x + y

/-- `(x - y) mod 2^16` (R202). -/
def aluSub (x y : Word) : Word := x - y

/-- A left shift by the full 16-bit amount; 16 or more gives 0 (R203). -/
def aluShl (x n : Word) : Word := if n.toNat ≥ 16 then 0 else x <<< n.toNat

/-- A logical right shift by the full 16-bit amount; 16 or more gives 0 (R204; decision D8, log entry 14). -/
def aluShr (x n : Word) : Word := if n.toNat ≥ 16 then 0 else x >>> n.toNat

/-- ADD (R201). -/
def execAdd (a b c : Reg) (s : State) : Result := aluResult a (aluAdd (s.reg b) (s.reg c)) s

/-- SUB (R202). -/
def execSub (a b c : Reg) (s : State) : Result := aluResult a (aluSub (s.reg b) (s.reg c)) s

/-- SHL (R203). -/
def execShl (a b c : Reg) (s : State) : Result := aluResult a (aluShl (s.reg b) (s.reg c)) s

/-- SHR (R204). -/
def execShr (a b c : Reg) (s : State) : Result := aluResult a (aluShr (s.reg b) (s.reg c)) s

/-- AND (R205). -/
def execAnd (a b c : Reg) (s : State) : Result := aluResult a (s.reg b &&& s.reg c) s

/-- OR (R206). -/
def execOr (a b c : Reg) (s : State) : Result := aluResult a (s.reg b ||| s.reg c) s

/-- NOT (R207): arg3 is ignored. -/
def execNot (a b : Reg) (_c : Nibble) (s : State) : Result := aluResult a (s.reg b ^^^ 0xFFFF) s

/-- XOR (R208). -/
def execXor (a b c : Reg) (s : State) : Result := aluResult a (s.reg b ^^^ s.reg c) s

end Sys2Proof.Machine
end

