-- ==== Sys2Proof/Machine/Operands.lean ====
section
/-! DEFINITION. The operand forms of 30_encoding.md R96: register direct, register indirect, size flag, bus driver,
immediate. -/

namespace Sys2Proof.Machine

/-- `x[r].L <- b`: the low byte written, the high byte kept (00_scope.md R6). -/
def State.setRegLow (s : State) (r : Reg) (b : Byte) : State := s.setReg r (withLowByte (s.reg r) b)

/-- `x[r].H <- b`: the high byte written, the low byte kept (00_scope.md R6). -/
def State.setRegHigh (s : State) (r : Reg) (b : Byte) : State := s.setReg r (withHighByte (s.reg r) b)

/-- The size flag of LOAD and STORE: every nonzero arg3 means the byte form (30_encoding.md R96 (c)). -/
def isByteForm (c : Nibble) : Bool := c != 0

/-- The base of a data access: the address register's value, with offset 0 (30_encoding.md R96 (b), 20_memory.md R65). -/
def indirectBase (b : Reg) (s : State) : Word := s.reg b

/-- The channel address of a bus driver value, its high byte (42_bus.md R163). -/
def driverChannel (d : Word) : Byte := highByte d

/-- The data register of a bus driver value: its low byte `k`, which names a register only when `k <= 15`; never masked
(42_bus.md R163, decision D4, log entry 10). -/
def dataReg (k : Byte) : Option Reg := if k.toNat < 16 then some (BitVec.ofNat 4 k.toNat) else none

/-- The immediate of SET: `Load16(pc, 1)` (30_encoding.md R94, 41_load_store_set.md R143). -/
def loadImmediate (s : State) : Except InstrFault Word := load16 s.ip 1 s

end Sys2Proof.Machine
end

