-- ==== Sys2Proof/Machine/Channels.lean ====
section
/-! DEFINITION. The bus operations `send`, `recv`, `which` (42_bus.md R160 to R162) and the moves of the other agents on the
bus and the interrupt sink (10_state.md R31 to R34). -/

namespace Sys2Proof.Machine

/-- The channel with address `c`, if `c` is in `CHANNELS`. -/
def State.channel? (s : State) (c : Byte) : Option Channel := s.channels.find? (fun ch => ch.params.addr == c)

/-- Channel `c` changed by `f`. -/
def State.updateChannel (s : State) (c : Byte) (f : Channel → Channel) : State :=
  { s with channels := s.channels.map (fun ch => if ch.params.addr == c then f ch else ch) }

/-- What a bus operation that may suspend answers. -/
inductive BusAnswer (α : Type) where
  /-- The address is not in `CHANNELS`. -/
  | unknown
  /-- The core must wait. -/
  | blocked
  /-- The operation is complete. -/
  | done (a : α)
deriving DecidableEq, Repr

/-- Whether the channel accepts a word now: its outbound buffer has room, or, for capacity 0, its peripheral is at this moment
receiving (42_bus.md R160, 10_state.md R32). -/
def Channel.canAccept (ch : Channel) : Bool :=
  decide (ch.outbound.length < ch.params.outCap) || (ch.params.outCap == 0 && ch.receiving)

/-- The channel after it has accepted a word: `out[c] <- out[c] ++ [v]` (42_bus.md R160). With capacity 0 the receive the word
has met is over, and the word waits in `out[c]` for the peripheral's take. DEDUCED (log entry 21). -/
def Channel.accept (v : Word) (ch : Channel) : Channel := { ch with outbound := ch.outbound ++ [v], receiving := false }

/-- The word `v` sent on channel `c`, which accepts it. -/
def sendWord (c : Byte) (v : Word) (s : State) : State :=
  { s.updateChannel c (Channel.accept v) with sent := s.sent ++ [(c, v)] }

/-- `BusSend(c, v)` (42_bus.md R160). -/
def busSend (c : Byte) (v : Word) (s : State) : BusAnswer State :=
  match s.channel? c with
  | none => .unknown
  | some ch => if ch.canAccept then .done (sendWord c v s) else .blocked

/-- The channel after the core has received its oldest inbound word. -/
def Channel.deliver (ch : Channel) : Channel := { ch with inbound := ch.inbound.tail, consumed := ch.consumed + 1 }

/-- `BusRecv(c)` (42_bus.md R161): the word, and the state without it. -/
def busRecv (c : Byte) (s : State) : BusAnswer (Word × State) :=
  match s.channel? c with
  | none => .unknown
  | some ch =>
    match ch.inbound with
    | [] => .blocked
    | v :: _ => .done (v, s.updateChannel c Channel.deliver)

/-- The addresses of the channels that have inbound data ready (42_bus.md R162). -/
def State.ready (s : State) : List Byte :=
  (s.channels.filter (fun ch => !ch.inbound.isEmpty)).map (fun ch => ch.params.addr)

/-- One member of a list of ready channels, none of an empty one. Of several, the `n`-th answer of the free value
`Config.whichPick` says which (42_bus.md R162, log entry 8). -/
def pickReady (ready : List Byte) (n : Nat) : Option Byte :=
  match ready with
  | [] => none
  | [c] => some c
  | c :: rest => some ((c :: rest).getD (Config.whichPick n % (rest.length + 1)) c)

/-- `BusWhich()` (42_bus.md R162): the address of some ready channel, or NoData. It removes nothing from any FIFO. -/
def busWhich (s : State) : Option Byte := pickReady s.ready s.whichCount

/-- The state after a question to `which()`: only the counter of the free value moves. -/
def whichAsked (s : State) : State := { s with whichCount := s.whichCount + 1 }

/-- The channel after its peripheral has offered a word. The peripheral cannot offer while its last word is still in its
hands, the inbound buffer being full (10_state.md R32; DEDUCED, log entry 7). -/
def Channel.offer (v : Word) (ch : Channel) : Channel :=
  if ch.inbound.length ≤ ch.params.inCap then { ch with inbound := ch.inbound ++ [v] } else ch

/-- The channel after its peripheral has taken the oldest outbound word. Where there is none the peripheral waits, which for
capacity 0, and only there, is what a send must meet (42_bus.md R160; DEDUCED, log entry 21). -/
def Channel.take (ch : Channel) : Channel :=
  match ch.outbound with
  | [] => { ch with receiving := ch.params.outCap == 0 }
  | _ :: rest => { ch with outbound := rest }

/-- A move of another agent (40_fetch_execute.md R131). Moves touch FIFOs and the interrupt only, never registers or memory
(10_state.md R38, log entry 24); an interrupt record is not looked into (R34). A tick and the start of boot are acted on
where the core waits for them and do nothing elsewhere (log entry 7). -/
def envMove (m : EnvMove) (s : State) : State :=
  match m with
  | .tick => s
  | .startBoot => s
  | .interrupt _ => { s with irqPending := true }
  | .closeSink => { s with irqPending := true }
  | .offer c v => s.updateChannel c (Channel.offer v)
  | .take c => s.updateChannel c Channel.take

/-- The next move of the environment script, if there is one (log entry 6). -/
def letEnvMove (s : State) : State :=
  match s.env with
  | [] => s
  | m :: rest => envMove m { s with env := rest }

end Sys2Proof.Machine
end

