-- ==== Sys2Proof/Machine/Bus.lean ====
section
/-! DEFINITION. WBUS, SBUS, RBUS (42_bus.md R163 to R168), and the end of an SBUS or RBUS that was suspended. -/

namespace Sys2Proof.Machine

/-- What WBUS writes: NoData becomes the empty signal 0x0100, a ready channel its address (R165). -/
def whichWord (r : Option Byte) : Word :=
  match r with
  | none => wordOf 1 0
  | some c => wordOf 0 c

/-- WBUS (R165). The high byte of the driver register is ignored (90_conflicts.md C6). -/
def execWbus (a : Reg) (s : State) : Result :=
  let k := lowByte (s.reg a)
  match dataReg k with
  | none => .fault (.regIndexOutOfRange k)
  | some r => retire 1 ((whichAsked s).setReg r (whichWord (busWhich s)))

/-- SBUS (R166). The checks come in the order of R164: data register, channel, blocking condition. -/
def execSbus (a : Reg) (s : State) : Result :=
  let d := s.reg a
  match dataReg (lowByte d) with
  | none => .fault (.regIndexOutOfRange (lowByte d))
  | some k =>
    match busSend (driverChannel d) (s.reg k) s with
    | .unknown => takeFault (some (Instr.sbus a).opcode) (.invalidBusAddress (driverChannel d)) 1 s
    | .blocked => .next (suspend (.suspendedSend (driverChannel d) (s.reg k)) s)
    | .done t => retire 1 t

/-- RBUS (R167). The checks come in the order of R164. -/
def execRbus (a : Reg) (s : State) : Result :=
  let d := s.reg a
  match dataReg (lowByte d) with
  | none => .fault (.regIndexOutOfRange (lowByte d))
  | some k =>
    match busRecv (driverChannel d) s with
    | .unknown => takeFault (some (Instr.rbus a).opcode) (.invalidBusAddress (driverChannel d)) 1 s
    | .blocked => .next (suspend (.suspendedRecv (driverChannel d) k) s)
    | .done (v, t) => retire 1 (t.setReg k v)

/-- A core held in SBUS: when the channel accepts, the word goes out and the instruction ends; until then only another
agent can move, and the interrupt is not looked at (40_fetch_execute.md R128, R160). -/
def stepSuspendedSend (c : Byte) (v : Word) (s : State) : Result :=
  match busSend c v s with
  | .done t => retire 1 t
  | .blocked => .next (letEnvMove s)
  | .unknown => .next (letEnvMove s)

/-- A core held in RBUS: when the channel supplies a word, it is received and the instruction ends (40_fetch_execute.md R128,
R161). -/
def stepSuspendedRecv (c : Byte) (k : Reg) (s : State) : Result :=
  match busRecv c s with
  | .done (v, t) => retire 1 (t.setReg k v)
  | .blocked => .next (letEnvMove s)
  | .unknown => .next (letEnvMove s)

end Sys2Proof.Machine
end

