-- ==== Sys2Proof/Machine/DataMove.lean ====
section
/-! DEFINITION. LOAD, STORE, SET (41_load_store_set.md R140 to R144). -/

namespace Sys2Proof.Machine

/-- LOAD (R141). A failing access leaves the destination as it was (R140, decision D6, log entry 12). -/
def execLoad (a b : Reg) (c : Nibble) (s : State) : Result :=
  if isByteForm c then
    match load8 (indirectBase b s) 0 s with
    | .ok v => retire 2 (s.setRegLow a v)
    | .error f => takeFault (some (Instr.load a b c).opcode) f 2 s
  else
    match load16 (indirectBase b s) 0 s with
    | .ok v => retire 2 (s.setReg a v)
    | .error f => takeFault (some (Instr.load a b c).opcode) f 2 s

/-- STORE (R142): the byte form stores the low byte. -/
def execStore (a b : Reg) (c : Nibble) (s : State) : Result :=
  if isByteForm c then
    match save8 (indirectBase b s) 0 (lowByte (s.reg a)) s with
    | .ok t => retire 2 t
    | .error f => takeFault (some (Instr.store a b c).opcode) f 2 s
  else
    match save16 (indirectBase b s) 0 (s.reg a) s with
    | .ok t => retire 2 t
    | .error f => takeFault (some (Instr.store a b c).opcode) f 2 s

/-- SET (R143). The operand `imm` is what the decoder read from the two bytes after the opcode byte; the access to them,
`Load16(pc, 1)`, faults when the third byte of the instruction is beyond memory (log entry 22). -/
def execSet (a : Reg) (imm : Word) (s : State) : Result :=
  match loadImmediate s with
  | .ok _ => retire 3 (s.setReg a imm)
  | .error f => takeFault (some (Instr.set a imm).opcode) f 3 s

end Sys2Proof.Machine
end

