-- ==== Sys2Proof/Machine/Flags.lean ====
section
/-! DEFINITION. The machine has no flags (10_state.md R25); what takes their place is the two comparisons that LJUMP and EJUMP
make themselves (43_jump.md R190). -/

namespace Sys2Proof.Machine

/-- LJUMP's condition: 16-bit values compared as unsigned numbers (43_jump.md R190, R191; decision D7, log entry 13). -/
def lessUnsigned (x y : Word) : Bool := x.toNat < y.toNat

/-- EJUMP's condition: all 16 bits equal (43_jump.md R192). -/
def allBitsEqual (x y : Word) : Bool := x == y

end Sys2Proof.Machine
end

