-- ==== Sys2Proof/Machine/Jump.lean ====
section
/-! DEFINITION. LJUMP and EJUMP (43_jump.md R190 to R193). -/

namespace Sys2Proof.Machine

/-- A conditional jump (R190): taken, the whole register `x[c]` goes to `x[15]` and the width is 0; else the width is 2. The
target is not checked. -/
def jumpIf (taken : Bool) (c : Reg) (s : State) : Result :=
  if taken then retire 0 (s.setIp (s.reg c)) else retire 2 s

/-- LJUMP (R191). -/
def execLjump (a b c : Reg) (s : State) : Result := jumpIf (lessUnsigned (s.reg a) (s.reg b)) c s

/-- EJUMP (R192). -/
def execEjump (a b c : Reg) (s : State) : Result := jumpIf (allBitsEqual (s.reg a) (s.reg b)) c s

end Sys2Proof.Machine
end

