-- ==== Sys2Proof/Machine/Dispatch.lean ====
section
/-! DEFINITION. Dispatch on the sixteen instructions (40_fetch_execute.md R123): one arm a constructor, each one call of its
meaning, which runs the effect and ends the iteration up to the wait point (R129). -/

namespace Sys2Proof.Machine

def exec (i : Instr) (s : State) : Host.Outcome State Fault Refusal :=
  match i with
  | .load a b c => Sys2Proof.Machine.execLoad a b c s
  | .store a b c => Sys2Proof.Machine.execStore a b c s
  | .set a imm => Sys2Proof.Machine.execSet a imm s
  | .wbus a => Sys2Proof.Machine.execWbus a s
  | .sbus a => Sys2Proof.Machine.execSbus a s
  | .rbus a => Sys2Proof.Machine.execRbus a s
  | .ljump a b c => Sys2Proof.Machine.execLjump a b c s
  | .ejump a b c => Sys2Proof.Machine.execEjump a b c s
  | .add a b c => Sys2Proof.Machine.execAdd a b c s
  | .sub a b c => Sys2Proof.Machine.execSub a b c s
  | .shl a b c => Sys2Proof.Machine.execShl a b c s
  | .shr a b c => Sys2Proof.Machine.execShr a b c s
  | .and a b c => Sys2Proof.Machine.execAnd a b c s
  | .or a b c => Sys2Proof.Machine.execOr a b c s
  | .not a b c => Sys2Proof.Machine.execNot a b c s
  | .xor a b c => Sys2Proof.Machine.execXor a b c s

end Sys2Proof.Machine
end

