-- ==== Sys2Proof/Machine/Run.lean ====
section
/-! DEFINITION. The parts of a step outside an instruction: boot, the iteration, the wait point (40_fetch_execute.md R120 to
R130, 70_reset_and_hazards.md R270 to R275). -/

namespace Sys2Proof.Machine

/-- Before boot the other agents may move (decision D3); boot starts when the harness starts it, or when the script has
ended (log entry 6). -/
def stepReset (s : State) : Result :=
  match s.env with
  | [] => .next { s with runState := .booting 0 }
  | .startBoot :: rest => .next { s with runState := .booting 0, env := rest }
  | m :: rest => .next (envMove m { s with env := rest })

/-- `BOOT.load(index)` for the indexes below `length`; nothing beyond (10_state.md R30, 93_implementation_defined.md U5). -/
def bootLoad (b : BootMedium) (index : Nat) : Option Byte := b.image[index]?

/-- One turn of the boot loop, or its end (70_reset_and_hazards.md R273): `Save8(base = index, offset = off, byte)`, the sum
formed without wrap; a failing write aborts boot for good and undoes nothing (R274, log entry 19). -/
def bootTurn (index : Nat) (s : State) : Result :=
  match bootLoad s.boot index with
  | none => .next { s.setIp s.boot.start with runState := .running }
  | some b =>
    match s.memWrite8 (index + s.boot.offset.toNat) b with
    | some t => .next { t with runState := .booting (index + 1) }
    | none => .next { s with runState := .bootFailed }

/-- A step of boot: the boot sequencer's, or a move of another agent in between, an interrupt for instance (60_exceptions.md
R242 (d)). Which of the two comes first is the free value `Config.bootYields` (log entry 35). -/
def stepBoot (index : Nat) (s : State) : Result :=
  match s.env with
  | [] => bootTurn index s
  | m :: rest =>
    if Config.bootYields index s.env.length then .next (envMove m { s with env := rest }) else bootTurn index s

/-- One iteration up to the wait point: fetch, decode, execute, IP advance, report (40_fetch_execute.md R129). -/
def stepInstruction (s : State) : Result :=
  match fetchInstr s with
  | .error f => .next (fetchFaulted f s)
  | .ok i => exec i s

/-- The next iteration starts. -/
def nextIteration (s : State) : State := { s with runState := .running }

/-- The run loop ends; registers, memory and FIFOs keep their values (60_exceptions.md R240). -/
def endRun (s : State) : State := { s with runState := .terminated }

/-- An event of the script at the wait point: a tick starts the next iteration, any other is a move of another agent. -/
def waitMove (m : EnvMove) (s : State) : State := if m = .tick then nextIteration s else envMove m s

/-- The wait point (40_fetch_execute.md R127). No interrupt pending: the next event of the script; when it has ended, ticks keep
coming (log entry 6). An interrupt pending: the interrupt ends the run, or the next event of the script goes before it, a tick
that is there too or a move made while the instruction ran; at most `Config.irqLatency` events go before it (log entry 9). With
no event left, and so no tick, it ends the run. -/
def stepWait (s : State) : Result :=
  if s.irqPending then
    match s.env with
    | [] => .next (endRun s)
    | m :: rest =>
      if s.irqPassed < Config.irqLatency then .next (waitMove m { s with env := rest, irqPassed := s.irqPassed + 1 })
      else .next (endRun s)
  else
    match s.env with
    | [] => .next (nextIteration s)
    | m :: rest => .next (waitMove m { s with env := rest })

end Sys2Proof.Machine
end

