-- ==== Sys2Proof/Machine/Step.lean ====
section
/-! DEFINITION. The step of the machine, by run state (10_state.md R35). -/

namespace Sys2Proof.Machine

/-- One step. A final run state has no move (decision D25): the state stays as it is, log entry 20. -/
def step (s : State) : Host.Outcome State Fault Refusal :=
  match s.runState with
  | .reset => stepReset s
  | .booting index => stepBoot index s
  | .bootFailed => .next s
  | .running => stepInstruction s
  | .suspendedSend c v => stepSuspendedSend c v s
  | .suspendedRecv c k => stepSuspendedRecv c k s
  | .waiting => stepWait s
  | .terminated => .next s

/-- For the host: `s`, running, with the instruction of an opcode-table word at `pc`. It stands for the load of a program
from outside the machine, log entry 5. -/
def State.withFetchWord (s : State) (nbits w : Nat) : State := s.withBytesAtIp (tableBytes nbits w)

end Sys2Proof.Machine
end

