-- ==== Sys2Proof/Safety.lean ====
section
/-! DEFINITION. The invariant of the machine and the words the statements use for what a step changes and leaves. -/

namespace Sys2Proof.Machine

/-- A channel's FIFOs stay within their bounds: `out[c]` within `OUT_CAP[c]`, for capacity 0 the one word of a rendezvous;
`in[c]` within `IN_CAP[c]` and the one word a suspended peripheral holds out; only for capacity 0 does a peripheral's receive
matter, and it finds nothing to take (10_state.md R31, R32; 42_bus.md R160). -/
abbrev Channel.Inv (ch : Channel) : Prop :=
  ch.outbound.length ≤ max ch.params.outCap 1 ∧ ch.inbound.length ≤ ch.params.inCap + 1 ∧
  (ch.receiving = true → ch.outbound = [] ∧ ch.params.outCap = 0)

/-- The channel accepts a word now: its buffer has room, or, for capacity 0, its peripheral is receiving (42_bus.md R160). -/
abbrev Channel.Accepts (ch : Channel) : Prop :=
  ch.outbound.length < ch.params.outCap ∨ (ch.params.outCap = 0 ∧ ch.receiving = true)

/-- What the run state holds makes sense: the boot index is within the image, a suspended core waits for a known channel. -/
def State.runStateInv (s : State) : Bool :=
  match s.runState with
  | .booting index => decide (index ≤ s.boot.length)
  | .suspendedSend c _ => (s.channel? c).isSome
  | .suspendedRecv c _ => (s.channel? c).isSome
  | .reset | .bootFailed | .running | .waiting | .terminated => true

/-- The invariant: what holds at reset on every platform and is kept by every step. -/
structure State.Inv (s : State) : Prop where
  /-- `S <= 65536` (00_scope.md R4). -/
  memSize : s.cfg.wellFormed = true
  /-- Memory is in its canonical form. -/
  memCanonical : Memory.wf s.mem = true
  /-- Memory names no address at or beyond `S` (10_state.md R28). -/
  memInside : ∀ cell ∈ s.mem, cell.1 < s.cfg.memSize
  /-- The channel addresses are distinct and in order (10_state.md R31). -/
  channels : channelsWellFormed (s.channels.map Channel.params) = true
  /-- Every channel keeps its bounds. -/
  fifos : ∀ ch ∈ s.channels, ch.Inv
  /-- The run state makes sense. -/
  runState : s.runStateInv = true
  /-- No more events than the bound have gone before a pending interrupt (40_fetch_execute.md R127). -/
  irqPassed : s.irqPassed ≤ Config.irqLatency

/-- Every byte of memory reads the same. -/
def SameMemory (s t : State) : Prop := ∀ a, t.byteAt a = s.byteAt a

/-- Every byte of memory outside the `n` bytes from `base` on reads the same. -/
def SameMemoryOutside (base n : Nat) (s t : State) : Prop := ∀ a, ¬(base ≤ a ∧ a < base + n) → t.byteAt a = s.byteAt a

/-- The platform's parameters are the same (10_state.md R26, R30, R31). -/
def SamePlatform (s t : State) : Prop :=
  t.cfg = s.cfg ∧ t.boot = s.boot ∧ t.channels.map Channel.params = s.channels.map Channel.params

/-- The FIFOs of every channel and the record of what was sent are the same. -/
def SameBus (s t : State) : Prop := t.channels = s.channels ∧ t.sent = s.sent

/-- Interrupt, script and the counter of passed interrupts are the same. -/
def SameOutside (s t : State) : Prop := t.irqPending = s.irqPending ∧ t.env = s.env ∧ t.irqPassed = s.irqPassed

/-- Nothing was reported. -/
def NoReport (s t : State) : Prop := t.reports = s.reports

/-- Exactly one report was added, of this fault and with this opcode (10_state.md R36). -/
def Reported (op : Option Nibble) (f : InstrFault) (s t : State) : Prop :=
  ∃ r, t.reports = s.reports ++ [r] ∧ r.fault = f ∧ r.opcode = op

/-- The instruction pointer is `w` further on. Where that passes 0xFFFF the spec decides (D9), and a statement of its own
says what the model does. -/
def AdvancedBy (w : Nat) (s t : State) : Prop := s.ip.toNat + w < 65536 → t.ip.toNat = s.ip.toNat + w

/-- Register `a` holds `v` and every other register but the instruction pointer is the same; the instruction pointer is
advanced by `w` unless it is the destination, for which there is a statement of its own. -/
def RegWritten (a : Reg) (v : Word) (w : Nat) (s t : State) : Prop :=
  (∀ r, r ≠ ipReg → t.reg r = if r = a then v else s.reg r) ∧ (a ≠ ipReg → AdvancedBy w s t)

/-- No register but the instruction pointer is changed, and that is advanced by `w`. -/
def OnlyAdvanced (w : Nat) (s t : State) : Prop := (∀ r, r ≠ ipReg → t.reg r = s.reg r) ∧ AdvancedBy w s t

/-- All that an instruction on registers leaves alone, with the core at the wait point after it. -/
def OnlyRegisters (s t : State) : Prop :=
  SameMemory s t ∧ SamePlatform s t ∧ SameBus s t ∧ SameOutside s t ∧ NoReport s t ∧ t.whichCount = s.whichCount ∧
  t.runState = .waiting

/-- The instruction at `pc` has faulted: one report, `pc` advanced by `w`, nothing else changed, the core at the wait point
(60_exceptions.md R237, R238). -/
def Faulted (op : Option Nibble) (f : InstrFault) (w : Nat) (s t : State) : Prop :=
  OnlyAdvanced w s t ∧ SameMemory s t ∧ SamePlatform s t ∧ SameBus s t ∧ SameOutside s t ∧ Reported op f s t ∧
  t.whichCount = s.whichCount ∧ t.runState = .waiting

/-- The word `v` has gone to channel `c`, which was `ch`, and to nothing else (42_bus.md R160). -/
def SentOn (c : Byte) (ch : Channel) (v : Word) (s t : State) : Prop :=
  t.channel? c = some { ch with outbound := ch.outbound ++ [v], receiving := false } ∧
  (∀ c', c' ≠ c → t.channel? c' = s.channel? c') ∧ t.sent = s.sent ++ [(c, v)]

/-- The oldest inbound word of channel `c`, which was `ch`, has been received, `rest` is left, and nothing else has happened
on the bus (42_bus.md R161). -/
def ReceivedOn (c : Byte) (ch : Channel) (rest : List Word) (s t : State) : Prop :=
  t.channel? c = some { ch with inbound := rest, consumed := ch.consumed + 1 } ∧
  (∀ c', c' ≠ c → t.channel? c' = s.channel? c') ∧ t.sent = s.sent

/-- The register an instruction writes as its destination when it raises nothing: for WBUS and RBUS the data register, for a
taken jump register 15 (10_state.md R22, 42_bus.md R163, 43_jump.md R190). -/
def destination (i : Instr) (s : State) : Option Reg :=
  match i with
  | .load a _ _ | .set a _ => some a
  | .store _ _ _ | .sbus _ => none
  | .wbus a | .rbus a => dataReg (lowByte (s.reg a))
  | .ljump a b _ => if (s.reg a).toNat < (s.reg b).toNat then some ipReg else none
  | .ejump a b _ => if (s.reg a).toNat = (s.reg b).toNat then some ipReg else none
  | .add a _ _ | .sub a _ _ | .shl a _ _ | .shr a _ _ | .and a _ _ | .or a _ _ | .not a _ _ | .xor a _ _ => some a

/-- Nothing but the run state is different. -/
def OnlyRunState (r : RunState) (s t : State) : Prop := t = { s with runState := r }

/-- The two states agree on all that an instruction can see: registers, memory and its size, channels, and the free value's
counter. They may differ in tick period, boot medium, interrupt, run state, outputs and script. -/
def SameVisible (s t : State) : Prop :=
  t.regs = s.regs ∧ t.mem = s.mem ∧ t.cfg.memSize = s.cfg.memSize ∧ t.channels = s.channels ∧ t.whichCount = s.whichCount

/-- What the run state may be one step later (10_state.md R35). -/
def RunState.mayBecome (r r' : RunState) : Prop :=
  match r with
  | .reset => r' = .reset ∨ r' = .booting 0
  | .booting n => r' = .booting n ∨ r' = .booting (n + 1) ∨ r' = .running ∨ r' = .bootFailed
  | .bootFailed => r' = .bootFailed
  | .running => r' = .waiting ∨ (∃ c v, r' = .suspendedSend c v) ∨ (∃ c k, r' = .suspendedRecv c k)
  | .suspendedSend c v => r' = .suspendedSend c v ∨ r' = .waiting
  | .suspendedRecv c k => r' = .suspendedRecv c k ∨ r' = .waiting
  | .waiting => r' = .waiting ∨ r' = .running ∨ r' = .terminated
  | .terminated => r' = .terminated

/-- The boot sequencer's own move at index `n`: the byte copied, boot failed, or, past the image, the run started
(70_reset_and_hazards.md R273, R274). -/
def SequencerMoves (n : Nat) (s : State) (r : Result) : Prop :=
  (s.boot.image[n]? = none → r = .next { s.setIp s.boot.start with runState := .running }) ∧
  ∀ b, s.boot.image[n]? = some b →
    (s.boot.offset.toNat + n < s.cfg.memSize →
      r = .next { s.setByte (s.boot.offset.toNat + n) b with runState := .booting (n + 1) }) ∧
    (s.boot.offset.toNat + n ≥ s.cfg.memSize → r = .next { s with runState := .bootFailed })

/-- The state `k` steps on is `t`, none of the steps stopping. -/
def RunsTo (k : Nat) (s t : State) : Prop := Host.Core.run Sys2Proof.core k s = .next t

end Sys2Proof.Machine
end

