-- ==== Sys2Proof/Certificates/Slice0/Obligations.lean ====
section
/-! DEFINITION. The statements for the provers. A value or behaviour that the spec marks as its own decision or inference, or
that is the model's choice, is named in the docstring with its log entry (notes/assumptions/). -/

open Sys2Proof Sys2Proof.Machine

/-! ### Encoding -/

/-- 30_encoding.md, sections 1 to 3: the decoder gives back every instruction from its bytes, whatever follows them. -/
def Obligations.DecodeInvertsEncode : Prop :=
  ∀ (i : Instr) (rest : List Byte), i.wellFormed = true → decode (encode i ++ rest) = .ok i

/-- R97: any three bytes begin with an instruction, of the opcode their first nibble says, and no bit of its bytes is
dropped. -/
def Obligations.EveryBytePatternDecodes : Prop :=
  ∀ b0 b1 b2 : Byte, ∃ i : Instr, decode [b0, b1, b2] = .ok i ∧ i.opcode = highNibble b0 ∧ i.wellFormed = true ∧
    encode i = [b0, b1, b2].take (lengthOfOpcode (highNibble b0))

/-- 30_encoding.md, section 2: opcode 2 is 3 bytes long, opcodes 3, 4, 5 one byte, every other two bytes. -/
def Obligations.OpcodeDecidesTheLength : Prop :=
  ∀ i : Instr, (encode i).length =
    if i.opcode.toNat = 2 then 3 else if 3 ≤ i.opcode.toNat ∧ i.opcode.toNat ≤ 5 then 1 else 2

/-- Words written out from the encodings of 30_encoding.md, section 4 of the syntax table and 95_test_vectors.md decode to
the instructions they stand for. -/
def Obligations.SampleWordsDecode : Prop :=
  decode [0x01, 0x21] = .ok (.load 1 2 1) ∧ decode [0x14, 0x00] = .ok (.store 4 0 0) ∧
  decode [0x24, 0xBE, 0xEF] = .ok (.set 4 0xBEEF) ∧ decode [0x45, 0x6A] = .ok (.sbus 5) ∧
  decode [0x71, 0x23] = .ok (.ejump 1 2 3) ∧ decode [0x82, 0x21] = .ok (.add 2 2 1) ∧
  decode [0xE1, 0x2F] = .ok (.not 1 2 15) ∧ decode [0x24, 0xBE] = .error (.truncated 2 3 2)

/-! ### Registers and memory -/

/-- R21: one word per register with two bytes; a whole write, a write of the high byte, a write of the low byte; each leaves
every other register alone. -/
def Obligations.RegisterBytesAndWordsAgree : Prop :=
  ∀ (s : State) (r : Reg) (v : Word) (b : Byte),
    (s.setReg r v).reg r = v ∧
    v.toNat = (highByte v).toNat * 256 + (lowByte v).toNat ∧
    highByte ((s.setRegHigh r b).reg r) = b ∧ lowByte ((s.setRegHigh r b).reg r) = lowByte (s.reg r) ∧
    lowByte ((s.setRegLow r b).reg r) = b ∧ highByte ((s.setRegLow r b).reg r) = highByte (s.reg r) ∧
    ∀ q, q ≠ r → (s.setReg r v).reg q = s.reg q ∧ (s.setRegHigh r b).reg q = s.reg q ∧ (s.setRegLow r b).reg q = s.reg q

/-- R60, R61: a byte is read and written at the exact sum of base and offset, or fails with that pair; a write changes no
other cell. -/
def Obligations.ByteAccess : Prop :=
  ∀ (s : State) (base offset : Word) (v : Byte), Memory.wf s.mem = true →
    (base.toNat + offset.toNat ≥ s.cfg.memSize →
      load8 base offset s = .error (.segfault base offset) ∧ save8 base offset v s = .error (.segfault base offset)) ∧
    (base.toNat + offset.toNat < s.cfg.memSize →
      load8 base offset s = .ok (s.byteAt (base.toNat + offset.toNat)) ∧
      ∃ t, save8 base offset v s = .ok t ∧ t = { s with mem := t.mem } ∧
        t.byteAt (base.toNat + offset.toNat) = v ∧ SameMemoryOutside (base.toNat + offset.toNat) 1 s t)

/-- R63, R64: a word is two bytes, the high byte at the lower address; what was stored is read back; a failing access stores
neither byte (it gives no state). -/
def Obligations.WordAccess : Prop :=
  ∀ (s : State) (base offset v : Word), Memory.wf s.mem = true →
    (base.toNat + offset.toNat + 1 ≥ s.cfg.memSize →
      load16 base offset s = .error (.segfault base offset) ∧ save16 base offset v s = .error (.segfault base offset)) ∧
    (base.toNat + offset.toNat + 1 < s.cfg.memSize →
      load16 base offset s =
        .ok (wordOf (s.byteAt (base.toNat + offset.toNat)) (s.byteAt (base.toNat + offset.toNat + 1))) ∧
      ∃ t, save16 base offset v s = .ok t ∧ t = { s with mem := t.mem } ∧ load16 base offset t = .ok v ∧
        t.byteAt (base.toNat + offset.toNat) = highByte v ∧ t.byteAt (base.toNat + offset.toNat + 1) = lowByte v ∧
        SameMemoryOutside (base.toNat + offset.toNat) 2 s t)

/-- R62: a sum of 0x10000 or more is out of bounds for every memory size, and so is a word at 0xFFFF. -/
def Obligations.AddressesNeverWrap : Prop :=
  ∀ (s : State) (base offset v : Word) (b : Byte), s.cfg.wellFormed = true →
    (base.toNat + offset.toNat ≥ 0x10000 →
      load8 base offset s = .error (.segfault base offset) ∧ save8 base offset b s = .error (.segfault base offset)) ∧
    (base.toNat + offset.toNat ≥ 0xFFFF →
      load16 base offset s = .error (.segfault base offset) ∧ save16 base offset v s = .error (.segfault base offset))

/-! ### The step -/

/-- A step of a running core runs the instruction its bytes decode to: `step` is `exec` of it, and nothing around it. The
third byte matters to SET only; where it is beyond memory SET faults whatever it is (log entry 22). -/
def Obligations.StepRunsTheDecodedInstruction : Prop :=
  ∀ (s : State) (i : Instr), s.runState = .running → s.ip.toNat + 1 < s.cfg.memSize →
    decode [s.byteAt s.ip.toNat, s.byteAt (s.ip.toNat + 1), s.byteAt (s.ip.toNat + 2)] = .ok i → i.wellFormed = true →
    step s = exec i s

/-- 40_fetch_execute.md, section 4: a failed fetch reports Segfault(ip0, 0) without an opcode and goes two bytes on, modulo
2^16. The spec's decisions D5, D9 and D10: log entries 11, 15, 16. -/
def Obligations.FailedFetchIsReportedAndSkipped : Prop :=
  ∀ s : State, s.runState = .running → s.ip.toNat + 1 ≥ s.cfg.memSize →
    ∃ t, step s = .next t ∧ Faulted none (.segfault s.ip 0) 2 s t ∧ t.ip.toNat = (s.ip.toNat + 2) % 65536 ∧
      t.reports = s.reports ++ [{ fault := .segfault s.ip 0, opcode := none, ip := s.ip }]

/-- Nothing stops the machine but a data register index of 16 or more in WBUS, SBUS or RBUS, and that always does. The
spec's decision D4: log entry 10. -/
def Obligations.OnlyABadDataRegisterStopsTheMachine : Prop :=
  ∀ s : State, (∀ r, step s ≠ .refused r) ∧
    ∀ f, step s = .fault f ↔
      s.runState = .running ∧ s.ip.toNat + 1 < s.cfg.memSize ∧
      3 ≤ (highNibble (s.byteAt s.ip.toNat)).toNat ∧ (highNibble (s.byteAt s.ip.toNat)).toNat ≤ 5 ∧
      16 ≤ (lowByte (s.reg (lowNibble (s.byteAt s.ip.toNat)))).toNat ∧
      f = .regIndexOutOfRange (lowByte (s.reg (lowNibble (s.byteAt s.ip.toNat))))

/-- Every step keeps the invariant: memory canonical and inside `S`, channels distinct and within their capacities, the run
state in order, the events before a pending interrupt within the free bound (log entries 2, 7, 9, 21, 26). -/
def Obligations.EveryStepKeepsTheInvariant : Prop :=
  ∀ s t : State, s.Inv → step s = .next t → t.Inv

/-- The invariant holds at reset on every admitted platform, and in State.reset. -/
def Obligations.ResetMeetsTheInvariant : Prop :=
  (∀ (cfg : Config) (channels : List ChannelParams) (boot : BootMedium), cfg.wellFormed = true →
    channelsWellFormed channels = true → (State.resetWith cfg channels boot).Inv) ∧ State.reset.Inv

/-- 10_state.md, section 10: what reset leaves, on every platform. The values are the spec's decisions D1 to D3: log entries
1, 2, 3. -/
def Obligations.ResetValues : Prop :=
  ∀ (cfg : Config) (channels : List ChannelParams) (boot : BootMedium),
    let s := State.resetWith cfg channels boot
    (∀ r, s.reg r = 0) ∧ (∀ a, s.byteAt a = 0) ∧ s.irqPending = false ∧ s.runState = .reset ∧ s.reports = [] ∧ s.sent = [] ∧
    s.cfg = cfg ∧ s.boot = boot ∧ s.channels.map Channel.params = channels ∧
    ∀ ch ∈ s.channels, ch.inbound = [] ∧ ch.outbound = []

/-- 10_state.md, section 8: the transitions of the run state, complete. The spec marks the table as derived; that a final
state stays is its decision D25: log entry 20; that another state may stay for a step while others move: log entry 28. -/
def Obligations.RunStateTransitions : Prop :=
  ∀ s t : State, step s = .next t → s.runState.mayBecome t.runState

/-- A terminated machine and one whose boot failed do not change at all. The spec's decision D25: log entry 20. -/
def Obligations.FinalStatesStay : Prop :=
  ∀ (s : State) (k : Nat), s.runState = .terminated ∨ s.runState = .bootFailed → RunsTo k s s

/-- 40_fetch_execute.md, section 1: only the interrupt, at the wait point, ends the run; no instruction and no fault does. -/
def Obligations.OnlyThePendingInterruptEndsTheRun : Prop :=
  ∀ s t : State, step s = .next t → t.runState = .terminated → s.runState ≠ .terminated →
    s.runState = .waiting ∧ s.irqPending = true ∧ t = { s with runState := .terminated }

/-- 40_fetch_execute.md, section 5: at the wait point a tick starts the next iteration and any other move of the script is made
by the step, the core still waiting; with an interrupt pending and no tick the run ends. How the end of the script is read is
the model's choice: without an interrupt ticks keep coming (log entry 6), with one pending no tick is there (log entry 9). -/
def Obligations.TickOrInterruptAtTheWaitPoint : Prop :=
  ∀ s : State, s.runState = .waiting →
    (s.irqPending = false → s.env = [] → step s = .next { s with runState := .running }) ∧
    (s.irqPending = false → ∀ rest, s.env = .tick :: rest → step s = .next { s with runState := .running, env := rest }) ∧
    (s.irqPending = false → ∀ m rest, s.env = m :: rest → m ≠ .tick →
      step s = .next (envMove m { s with env := rest }) ∧ (envMove m { s with env := rest }).runState = .waiting) ∧
    (s.irqPending = true → s.env = [] → step s = .next { s with runState := .terminated })

/-- 40_fetch_execute.md, section 5, and decision D12: with an interrupt pending, the next event of the script, a tick or a move,
goes first while `Config.irqLatency` events have not done so, and then the run ends. The free bound, and that moves of other
agents count: log entry 9. -/
def Obligations.PendingInterruptIsTakenInTheEnd : Prop :=
  ∀ (s : State) (m : EnvMove) (rest : List EnvMove), s.runState = .waiting → s.irqPending = true → s.env = m :: rest →
    (m = .tick → step s = .next (if s.irqPassed < Config.irqLatency
      then { s with runState := .running, env := rest, irqPassed := s.irqPassed + 1 }
      else { s with runState := .terminated })) ∧
    (m ≠ .tick → step s = .next (if s.irqPassed < Config.irqLatency
      then envMove m { s with env := rest, irqPassed := s.irqPassed + 1 }
      else { s with runState := .terminated })) ∧
    (Config.irqLatency ≤ s.irqPassed → step s = .next { s with runState := .terminated })

/-- 40_fetch_execute.md, section 5: an interrupt pending and no tick to come, the run ends without another instruction, whatever
the other agents still do. That a step makes one of their moves at a time: log entries 6 and 9. -/
def Obligations.WithoutATickThePendingInterruptEndsTheRun : Prop :=
  ∀ s : State, s.runState = .waiting → s.irqPending = true → (∀ m ∈ s.env, m ≠ .tick) →
    ∃ k t, k ≤ s.env.length + 1 ∧ RunsTo k s t ∧ t.runState = .terminated ∧ t.regs = s.regs ∧ t.mem = s.mem ∧
      NoReport s t ∧ t.sent = s.sent

/-- The interrupt is raised by a record, whatever is in it, or by the closing of the sink, both moves of other agents; it is
latched, and nothing else raises it. The spec's decision D23: log entry 29. -/
def Obligations.InterruptIsLatched : Prop :=
  (∀ (s : State) (r : IrqRecord), envMove (.interrupt r) s = { s with irqPending := true } ∧
    envMove .closeSink s = { s with irqPending := true }) ∧
  ∀ s t : State, step s = .next t →
    (s.irqPending = true → t.irqPending = true) ∧
    (s.irqPending = false → t.irqPending = true →
      ∃ m rest, s.env = m :: rest ∧ t.env = rest ∧ (m = .closeSink ∨ ∃ r, m = .interrupt r))

/-- 10_state.md, section 8, and 60_exceptions.md, section 5: before boot the step makes the other agents' moves until the
harness starts boot; during the copy either a move is made, an interrupt for instance, or the next byte is copied. That boot
starts when the script has ended, and which of the two comes first: log entries 6 and 35. What a failed boot leaves is the
spec's decision D21, log entry 19; one byte a step: log entry 28. -/
def Obligations.OthersMoveBeforeAndDuringBoot : Prop :=
  ∀ s : State,
    (s.runState = .reset →
      (s.env = [] → step s = .next { s with runState := .booting 0 }) ∧
      (∀ rest, s.env = .startBoot :: rest → step s = .next { s with runState := .booting 0, env := rest }) ∧
      ∀ m rest, s.env = m :: rest → m ≠ .startBoot → step s = .next (envMove m { s with env := rest })) ∧
    ∀ n, s.runState = .booting n →
      (s.env = [] → SequencerMoves n s (step s)) ∧
      ∀ m rest, s.env = m :: rest →
        if Config.bootYields n s.env.length then step s = .next (envMove m { s with env := rest })
        else SequencerMoves n s (step s)

/-- 10_state.md, section 9, ownership: no move of another agent changes a register, memory, a report, the run state or what
the core has sent; and a step at the wait point or before boot changes no register and no memory. Decision D24: log entry
24. -/
def Obligations.OthersNeverTouchRegistersOrMemory : Prop :=
  (∀ (m : EnvMove) (s : State), (envMove m s).regs = s.regs ∧ (envMove m s).mem = s.mem ∧
    (envMove m s).reports = s.reports ∧ (envMove m s).runState = s.runState ∧ (envMove m s).sent = s.sent ∧
    SamePlatform s (envMove m s)) ∧
  ∀ s t : State, s.runState = .waiting ∨ s.runState = .reset → step s = .next t → t.regs = s.regs ∧ t.mem = s.mem

/-- 10_state.md, section 3: memory size, channel set, capacities, tick period and boot medium are fixed for a run. -/
def Obligations.PlatformIsFixed : Prop := ∀ s t : State, step s = .next t → SamePlatform s t

/-- 10_state.md, section 9: at most one report a step, only from a running core, and it carries the address the instruction
was fetched from (decision D10, log entry 16). -/
def Obligations.ReportsComeOneByOneInOrder : Prop :=
  ∀ s t : State, step s = .next t →
    t.reports = s.reports ∨
    ∃ r, t.reports = s.reports ++ [r] ∧ r.ip = s.ip ∧ s.runState = .running ∧ t.runState = .waiting ∧ t.sent = s.sent

/-- 42_bus.md, order of bus traffic: at most one word is sent a step, to a channel of the platform, by a running or a
suspended core. -/
def Obligations.WordsAreSentOneByOneInOrder : Prop :=
  ∀ s t : State, step s = .next t →
    t.sent = s.sent ∨
    ∃ c v, t.sent = s.sent ++ [(c, v)] ∧ (s.channel? c).isSome = true ∧
      (s.runState = .running ∨ s.runState = .suspendedSend c v)

/-- 10_state.md, section 6: within a channel, words keep their order: a step leaves a FIFO alone, adds one word at its end or
takes one from its head. -/
def Obligations.ChannelsAreFifos : Prop :=
  ∀ (s t : State) (c : Byte) (ch : Channel), step s = .next t → s.channel? c = some ch →
    ∃ ch', t.channel? c = some ch' ∧ ch'.params = ch.params ∧
      (ch'.inbound = ch.inbound ∨ (∃ v, ch'.inbound = ch.inbound ++ [v]) ∨ ∃ v, ch.inbound = v :: ch'.inbound) ∧
      (ch'.outbound = ch.outbound ∨ (∃ v, ch'.outbound = ch.outbound ++ [v]) ∨ ∃ v, ch.outbound = v :: ch'.outbound)

/-- 10_state.md, section 6: what a peripheral's move does to its own channel, and that it leaves the others alone. How many
words a peripheral can hold out, and that taking from an empty FIFO is to wait for a word: log entries 7 and 21. -/
def Obligations.PeripheralMoves : Prop :=
  ∀ (s : State) (c : Byte) (ch : Channel) (v : Word), s.channel? c = some ch →
    (envMove (.offer c v) s).channel? c =
      some (if ch.inbound.length ≤ ch.params.inCap then { ch with inbound := ch.inbound ++ [v] } else ch) ∧
    (∀ w rest, ch.outbound = w :: rest → (envMove (.take c) s).channel? c = some { ch with outbound := rest }) ∧
    (ch.outbound = [] → (envMove (.take c) s).channel? c = some { ch with receiving := ch.params.outCap == 0 }) ∧
    ∀ c', c' ≠ c → (envMove (.offer c v) s).channel? c' = s.channel? c' ∧ (envMove (.take c) s).channel? c' = s.channel? c'

/-- What no instruction can see (10_state.md, sections 3, 8 and 9; 60_exceptions.md, section 8): tick period, boot medium,
interrupt, run state, reports and the outside do not influence registers, memory or channels. -/
def Obligations.InstructionsCannotSeeTheOutside : Prop :=
  ∀ (i : Instr) (s₁ s₂ : State), SameVisible s₁ s₂ →
    (∀ f, exec i s₁ = .fault f → exec i s₂ = .fault f) ∧
    ∀ t₁, exec i s₁ = .next t₁ → ∃ t₂, exec i s₂ = .next t₂ ∧ SameVisible t₁ t₂

/-! ### Boot -/

/-- 70_reset_and_hazards.md, section 2: boot copies the image to `offset`, leaves every other byte and register alone, sets
the instruction pointer and enters the run loop, whatever moves the other agents make meanwhile; an interrupt pending at the
start stays pending (60_exceptions.md, section 5). The model's choices that reaching the run and the bound on the steps rest on:
boot starts when the script has ended (log entry 6), the order of moves and bytes is free (log entry 35), one byte a step (log
entry 28). -/
def Obligations.BootCopiesTheImage : Prop :=
  ∀ s : State, s.Inv → s.runState = .reset →
    (s.boot.length = 0 ∨ s.boot.offset.toNat + s.boot.length ≤ s.cfg.memSize) →
    ∃ k t, k ≤ s.boot.length + 2 + s.env.length ∧ RunsTo k s t ∧ t.runState = .running ∧ t.ip = s.boot.start ∧
      (∀ r, r ≠ ipReg → t.reg r = s.reg r) ∧
      (∀ n b, s.boot.image[n]? = some b → t.byteAt (s.boot.offset.toNat + n) = b) ∧
      SameMemoryOutside s.boot.offset.toNat s.boot.length s t ∧ SamePlatform s t ∧ t.sent = s.sent ∧ NoReport s t ∧
      (s.irqPending = true → t.irqPending = true) ∧ (s.env = [] → k = s.boot.length + 2 ∧ SameBus s t)

/-- 70_reset_and_hazards.md, section 2: an image that does not fit makes boot fail, whatever moves the other agents make; the
bytes that fitted stay, the instruction pointer is not loaded, nothing is reported. Decision D21: log entry 19. The model's
choices that reaching the failure and the bound on the steps rest on: boot starts when the script has ended (log entry 6), the
order of moves and bytes is free (log entry 35), one byte a step (log entry 28). -/
def Obligations.BootFailsWhenTheImageDoesNotFit : Prop :=
  ∀ s : State, s.Inv → s.runState = .reset → 1 ≤ s.boot.length →
    s.boot.offset.toNat + s.boot.length > s.cfg.memSize →
    ∃ k t, k ≤ s.boot.length + 1 + s.env.length ∧ RunsTo k s t ∧ t.runState = .bootFailed ∧ t.regs = s.regs ∧
      (∀ n b, s.boot.image[n]? = some b → s.boot.offset.toNat + n < s.cfg.memSize →
        t.byteAt (s.boot.offset.toNat + n) = b) ∧
      SameMemoryOutside s.boot.offset.toNat s.boot.length s t ∧ SamePlatform s t ∧ t.sent = s.sent ∧ NoReport s t ∧
      (s.env = [] → SameBus s t)

/-! ### LOAD, STORE, SET -/

/-- LOAD in bounds: the word form loads two bytes, the byte form replaces the low byte and keeps the high byte
(41_load_store_set.md, LOAD; that the high byte is kept is the spec's reading of the table). -/
def Obligations.LoadResult : Prop :=
  ∀ (a b : Reg) (c : Nibble) (s : State),
    (c = 0 → (s.reg b).toNat + 1 < s.cfg.memSize → ∃ t, exec (.load a b c) s = .next t ∧
      RegWritten a (wordOf (s.byteAt (s.reg b).toNat) (s.byteAt ((s.reg b).toNat + 1))) 2 s t ∧ OnlyRegisters s t) ∧
    (c ≠ 0 → (s.reg b).toNat < s.cfg.memSize → ∃ t, exec (.load a b c) s = .next t ∧
      RegWritten a (wordOf (highByte (s.reg a)) (s.byteAt (s.reg b).toNat)) 2 s t ∧ OnlyRegisters s t)

/-- LOAD out of bounds: Segfault(x[b], 0) is reported and nothing is loaded. Decision D6: log entry 12. -/
def Obligations.LoadOutOfBoundsFaults : Prop :=
  ∀ (a b : Reg) (c : Nibble) (s : State),
    (c = 0 ∧ (s.reg b).toNat + 1 ≥ s.cfg.memSize) ∨ (c ≠ 0 ∧ (s.reg b).toNat ≥ s.cfg.memSize) →
    ∃ t, exec (.load a b c) s = .next t ∧ Faulted (some 0) (.segfault (s.reg b) 0) 2 s t

/-- R142, STORE: encoding, the two forms, and the fault; every byte outside those stored to is unchanged. -/
def Obligations.StoreResult : Prop :=
  ∀ (a b : Reg) (c : Nibble) (s : State), Memory.wf s.mem = true →
    let ea := effectiveAddress (indirectBase b s) 0
    ea = (s.reg b).toNat ∧
    decode [byteOf 0x1 a, byteOf b c] = .ok (.store a b c) ∧
    (c = 0 → ea + 1 < s.cfg.memSize → ∃ t, exec (.store a b c) s = .next t ∧ OnlyAdvanced 2 s t ∧
      t.byteAt ea = highByte (s.reg a) ∧ t.byteAt (ea + 1) = lowByte (s.reg a) ∧
      SameMemoryOutside ea 2 s t ∧ SamePlatform s t ∧ SameBus s t ∧ SameOutside s t ∧ NoReport s t ∧
      t.whichCount = s.whichCount ∧ t.runState = .waiting) ∧
    (c ≠ 0 → ea < s.cfg.memSize → ∃ t, exec (.store a b c) s = .next t ∧ OnlyAdvanced 2 s t ∧
      t.byteAt ea = lowByte (s.reg a) ∧
      SameMemoryOutside ea 1 s t ∧ SamePlatform s t ∧ SameBus s t ∧ SameOutside s t ∧ NoReport s t ∧
      t.whichCount = s.whichCount ∧ t.runState = .waiting) ∧
    ((c = 0 ∧ ea + 1 ≥ s.cfg.memSize) ∨ (c ≠ 0 ∧ ea ≥ s.cfg.memSize) →
      ∃ t, exec (.store a b c) s = .next t ∧ Faulted (some 1) (.segfault (s.reg b) 0) 2 s t)

/-- SET with its three bytes in memory: the operand goes to the register, three bytes on (41_load_store_set.md, SET). -/
def Obligations.SetResult : Prop :=
  ∀ (a : Reg) (imm : Word) (s : State), s.ip.toNat + 2 < s.cfg.memSize →
    ∃ t, exec (.set a imm) s = .next t ∧ RegWritten a imm 3 s t ∧ OnlyRegisters s t

/-- SET in the run: the immediate is the big-endian word at ip0+1, ip0+2 (41_load_store_set.md, SET). -/
def Obligations.SetLoadsTheBytesAfterItsOpcode : Prop :=
  ∀ s : State, s.runState = .running → s.ip.toNat + 2 < s.cfg.memSize → (highNibble (s.byteAt s.ip.toNat)).toNat = 2 →
    ∃ t, step s = .next t ∧
      RegWritten (lowNibble (s.byteAt s.ip.toNat))
        (wordOf (s.byteAt (s.ip.toNat + 1)) (s.byteAt (s.ip.toNat + 2))) 3 s t ∧ OnlyRegisters s t

/-- SET whose third byte is beyond memory: Segfault(ip0, 1) is reported, three bytes on. Decision D6: log entry 12. -/
def Obligations.SetOutOfBoundsFaults : Prop :=
  ∀ (a : Reg) (imm : Word) (s : State), s.ip.toNat + 2 ≥ s.cfg.memSize →
    ∃ t, exec (.set a imm) s = .next t ∧ Faulted (some 2) (.segfault s.ip 1) 3 s t

/-! ### WBUS, SBUS, RBUS -/

/-- WBUS (42_bus.md, WBUS): 0x0100 where no channel has inbound data, else the address of some channel that has; nothing is
taken from a FIFO. Which ready channel is a free value: log entry 8. -/
def Obligations.WbusResult : Prop :=
  ∀ (a k : Reg) (s : State), lowByte (s.reg a) = byteOf 0 k →
    ∃ t v, exec (.wbus a) s = .next t ∧ RegWritten k v 1 s t ∧
      ((∀ ch ∈ s.channels, ch.inbound = []) → v = 0x0100) ∧
      ((∃ ch ∈ s.channels, ch.inbound ≠ []) → ∃ ch ∈ s.channels, ch.inbound ≠ [] ∧ v = wordOf 0 ch.params.addr) ∧
      SameMemory s t ∧ SamePlatform s t ∧ SameBus s t ∧ SameOutside s t ∧ NoReport s t ∧ t.runState = .waiting

/-- SBUS on a channel that accepts: the data register's word is appended to `out[c]`, no register is written (42_bus.md, SBUS).
That for capacity 0 the word lies in `out[c]` until the peripheral's take, and its receive is over: log entry 21. -/
def Obligations.SbusSendsTheDataRegister : Prop :=
  ∀ (a k : Reg) (s : State) (ch : Channel), lowByte (s.reg a) = byteOf 0 k → s.channel? (highByte (s.reg a)) = some ch →
    ch.Accepts →
    ∃ t, exec (.sbus a) s = .next t ∧ OnlyAdvanced 1 s t ∧ SentOn (highByte (s.reg a)) ch (s.reg k) s t ∧
      SameMemory s t ∧ SamePlatform s t ∧ SameOutside s t ∧ NoReport s t ∧ t.whichCount = s.whichCount ∧
      t.runState = .waiting

/-- RBUS on a channel with inbound data: its oldest word goes to the data register (42_bus.md, RBUS). -/
def Obligations.RbusReceivesIntoTheDataRegister : Prop :=
  ∀ (a k : Reg) (s : State) (ch : Channel) (v : Word) (rest : List Word), lowByte (s.reg a) = byteOf 0 k →
    s.channel? (highByte (s.reg a)) = some ch → ch.inbound = v :: rest →
    ∃ t, exec (.rbus a) s = .next t ∧ RegWritten k v 1 s t ∧ ReceivedOn (highByte (s.reg a)) ch rest s t ∧
      SameMemory s t ∧ SamePlatform s t ∧ SameOutside s t ∧ NoReport s t ∧ t.whichCount = s.whichCount ∧
      t.runState = .waiting

/-- SBUS and RBUS on an unknown channel report InvalidBusAddress and change nothing else (42_bus.md, sections 1 and 2).
RBUS: the spec's decision D16, log entry 17; the order of the checks: D26, log entry 18. -/
def Obligations.UnknownChannelFaults : Prop :=
  ∀ (a k : Reg) (s : State), lowByte (s.reg a) = byteOf 0 k → s.channel? (highByte (s.reg a)) = none →
    (∃ t, exec (.sbus a) s = .next t ∧ Faulted (some 4) (.invalidBusAddress (highByte (s.reg a))) 1 s t) ∧
    (∃ t, exec (.rbus a) s = .next t ∧ Faulted (some 5) (.invalidBusAddress (highByte (s.reg a))) 1 s t)

/-- SBUS on a channel that does not accept and RBUS on an empty one suspend the core; nothing else changes
(40_fetch_execute.md, section 5). What the suspended core holds: log entry 25; capacity 0: log entry 21. -/
def Obligations.BlockedBusInstructionSuspends : Prop :=
  ∀ (a k : Reg) (s : State) (ch : Channel), lowByte (s.reg a) = byteOf 0 k → s.channel? (highByte (s.reg a)) = some ch →
    (¬ch.Accepts →
      ∃ t, exec (.sbus a) s = .next t ∧ OnlyRunState (.suspendedSend (highByte (s.reg a)) (s.reg k)) s t) ∧
    (ch.inbound = [] →
      ∃ t, exec (.rbus a) s = .next t ∧ OnlyRunState (.suspendedRecv (highByte (s.reg a)) k) s t)

/-- A data register index of 16 or more stops the model, before anything else is looked at. Decision D4: log entry 10. -/
def Obligations.BadDataRegisterStops : Prop :=
  ∀ (a : Reg) (s : State), 16 ≤ (lowByte (s.reg a)).toNat →
    exec (.wbus a) s = .fault (.regIndexOutOfRange (lowByte (s.reg a))) ∧
    exec (.sbus a) s = .fault (.regIndexOutOfRange (lowByte (s.reg a))) ∧
    exec (.rbus a) s = .fault (.regIndexOutOfRange (lowByte (s.reg a)))

/-- A suspended SBUS or RBUS ends, as it would have ended at once, when its channel accepts or supplies a word
(42_bus.md, section 1). That this is a step of its own: log entry 25; what accepting is for capacity 0: log entry 21. Where the
data register of RBUS is 15, DestinationFifteenIsAJump says the instruction pointer. -/
def Obligations.SuspendedBusInstructionCompletes : Prop :=
  ∀ (s : State) (c : Byte) (ch : Channel), s.channel? c = some ch →
    (∀ v, s.runState = .suspendedSend c v → ch.Accepts →
      ∃ t, step s = .next t ∧ OnlyAdvanced 1 s t ∧ SentOn c ch v s t ∧ SameMemory s t ∧ SamePlatform s t ∧
        SameOutside s t ∧ NoReport s t ∧ t.runState = .waiting) ∧
    (∀ k v rest, s.runState = .suspendedRecv c k → ch.inbound = v :: rest →
      ∃ t, step s = .next t ∧ RegWritten k v 1 s t ∧ ReceivedOn c ch rest s t ∧ SameMemory s t ∧ SamePlatform s t ∧
        SameOutside s t ∧ NoReport s t ∧ t.runState = .waiting)

/-- A suspended core is held until then: the step makes the next move of the script, if there is one, and nothing else, so no
register, memory, report or sent word changes, and no interrupt ends it (40_fetch_execute.md, section 5, which derives it; the
spec's decision D23, log entry 29). That a core nobody frees stays as it is: log entry 25; what accepting is for capacity 0: log
entry 21; one move a step: log entry 28. -/
def Obligations.SuspendedCoreIsHeld : Prop :=
  ∀ (s : State) (c : Byte) (ch : Channel), s.channel? c = some ch →
    (∃ v, s.runState = .suspendedSend c v ∧ ¬ch.Accepts) ∨ (∃ k, s.runState = .suspendedRecv c k ∧ ch.inbound = []) →
    (s.env = [] → step s = .next s) ∧
    (∀ m rest, s.env = m :: rest → step s = .next (envMove m { s with env := rest })) ∧
    ∃ t, step s = .next t ∧ t.runState = s.runState ∧ t.regs = s.regs ∧ t.mem = s.mem ∧ NoReport s t ∧ t.sent = s.sent ∧
      t.env = s.env.tail

/-- What lifts the hold is a move of the channel's peripheral: the next step but one ends a suspended RBUS whose peripheral
offers a word, an SBUS whose peripheral makes room in a full buffer, and, for capacity 0, an SBUS whose peripheral starts to
receive (40_fetch_execute.md, section 5; 42_bus.md, section 1). One move and one end a step: log entry 25; capacity 0: log
entry 21. -/
def Obligations.ThePeripheralLiftsTheHold : Prop :=
  ∀ (s : State) (c : Byte) (ch : Channel) (rest : List EnvMove), s.channel? c = some ch →
    (∀ k v, s.runState = .suspendedRecv c k → ch.inbound = [] → s.env = .offer c v :: rest →
      ∃ t, RunsTo 2 s t ∧ RegWritten k v 1 s t ∧ ReceivedOn c ch [] s t ∧ SameMemory s t ∧ SamePlatform s t ∧
        NoReport s t ∧ t.env = rest ∧ t.runState = .waiting) ∧
    (∀ v w out, s.runState = .suspendedSend c v → ¬ch.Accepts → ch.outbound = w :: out → out.length < ch.params.outCap →
      s.env = .take c :: rest →
      ∃ t, RunsTo 2 s t ∧ OnlyAdvanced 1 s t ∧ SentOn c { ch with outbound := out } v s t ∧ SameMemory s t ∧
        SamePlatform s t ∧ NoReport s t ∧ t.env = rest ∧ t.runState = .waiting) ∧
    ∀ v, s.runState = .suspendedSend c v → ¬ch.Accepts → ch.outbound = [] → ch.params.outCap = 0 →
      s.env = .take c :: rest →
      ∃ t, RunsTo 2 s t ∧ OnlyAdvanced 1 s t ∧ SentOn c ch v s t ∧ SameMemory s t ∧ SamePlatform s t ∧ NoReport s t ∧
        t.env = rest ∧ t.runState = .waiting

/-! ### LJUMP, EJUMP -/

/-- LJUMP: taken when the unsigned 16-bit value of x[a] is below that of x[b], to the whole of x[c]; else two bytes on
(43_jump.md, LJUMP). That the comparison is unsigned is the spec's decision D7: log entry 13. -/
def Obligations.LjumpResult : Prop :=
  ∀ (a b c : Reg) (s : State), ∃ t, exec (.ljump a b c) s = .next t ∧ OnlyRegisters s t ∧
    (∀ r, r ≠ ipReg → t.reg r = s.reg r) ∧
    ((s.reg a).toNat < (s.reg b).toNat → t.ip = s.reg c) ∧
    (¬(s.reg a).toNat < (s.reg b).toNat → AdvancedBy 2 s t)

/-- R192, EJUMP: encoding, taken when all 16 bits are equal, to the whole of x[c]; else two bytes on. -/
def Obligations.EjumpResult : Prop :=
  ∀ (a b c : Reg) (s : State), decode [byteOf 0x7 a, byteOf b c] = .ok (.ejump a b c) ∧
    ∃ t, exec (.ejump a b c) s = .next t ∧ OnlyRegisters s t ∧ (∀ r, r ≠ ipReg → t.reg r = s.reg r) ∧
      ((s.reg a).toNat = (s.reg b).toNat → t.ip = s.reg c) ∧
      ((s.reg a).toNat ≠ (s.reg b).toNat → AdvancedBy 2 s t)

/-! ### The ALU -/

/-- R201, ADD. -/
def Obligations.AddResult : Prop :=
  ∀ (a b c : Reg) (s : State), decode [byteOf 0x8 a, byteOf b c] = .ok (.add a b c) ∧
    ∃ t, exec (.add a b c) s = .next t ∧ OnlyRegisters s t ∧
      RegWritten a (BitVec.ofNat 16 (((s.reg b).toNat + (s.reg c).toNat) % 65536)) 2 s t

/-- R202, SUB: the non-negative residue. -/
def Obligations.SubResult : Prop :=
  ∀ (a b c : Reg) (s : State), decode [byteOf 0x9 a, byteOf b c] = .ok (.sub a b c) ∧
    ∃ t, exec (.sub a b c) s = .next t ∧ OnlyRegisters s t ∧
      RegWritten a (BitVec.ofNat 16 (if (s.reg b).toNat < (s.reg c).toNat then
        (s.reg b).toNat + 65536 - (s.reg c).toNat else (s.reg b).toNat - (s.reg c).toNat)) 2 s t

/-- R203, SHL: the amount is the full 16-bit value, 16 or more gives 0. -/
def Obligations.ShlResult : Prop :=
  ∀ (a b c : Reg) (s : State), decode [byteOf 0xA a, byteOf b c] = .ok (.shl a b c) ∧
    ∃ t, exec (.shl a b c) s = .next t ∧ OnlyRegisters s t ∧
      RegWritten a (if (s.reg c).toNat ≥ 16 then 0
        else BitVec.ofNat 16 ((s.reg b).toNat * 2 ^ (s.reg c).toNat % 65536)) 2 s t

/-- SHR (44_alu.md, SHR): logical, floor division by 2^n. That an amount of 16 or more gives 0 is the spec's decision D8:
log entry 14. -/
def Obligations.ShrResult : Prop :=
  ∀ (a b c : Reg) (s : State), decode [byteOf 0xB a, byteOf b c] = .ok (.shr a b c) ∧
    ∃ t, exec (.shr a b c) s = .next t ∧ OnlyRegisters s t ∧
      RegWritten a (if (s.reg c).toNat ≥ 16 then 0
        else BitVec.ofNat 16 ((s.reg b).toNat / 2 ^ (s.reg c).toNat)) 2 s t

/-- R205, AND. -/
def Obligations.AndResult : Prop :=
  ∀ (a b c : Reg) (s : State), decode [byteOf 0xC a, byteOf b c] = .ok (.and a b c) ∧
    ∃ t v, exec (.and a b c) s = .next t ∧ OnlyRegisters s t ∧ RegWritten a v 2 s t ∧
      ∀ n, v.getLsbD n = ((s.reg b).getLsbD n && (s.reg c).getLsbD n)

/-- R206, OR. -/
def Obligations.OrResult : Prop :=
  ∀ (a b c : Reg) (s : State), decode [byteOf 0xD a, byteOf b c] = .ok (.or a b c) ∧
    ∃ t v, exec (.or a b c) s = .next t ∧ OnlyRegisters s t ∧ RegWritten a v 2 s t ∧
      ∀ n, v.getLsbD n = ((s.reg b).getLsbD n || (s.reg c).getLsbD n)

/-- R207, NOT: every bit inverted, the same for all values of the third field. -/
def Obligations.NotResult : Prop :=
  ∀ (a b : Reg) (c : Nibble) (s : State), decode [byteOf 0xE a, byteOf b c] = .ok (.not a b c) ∧
    (∀ c', exec (.not a b c') s = exec (.not a b c) s) ∧
    ∃ t, exec (.not a b c) s = .next t ∧ OnlyRegisters s t ∧
      RegWritten a (BitVec.ofNat 16 (65535 - (s.reg b).toNat)) 2 s t

/-- R208, XOR. -/
def Obligations.XorResult : Prop :=
  ∀ (a b c : Reg) (s : State), decode [byteOf 0xF a, byteOf b c] = .ok (.xor a b c) ∧
    ∃ t v, exec (.xor a b c) s = .next t ∧ OnlyRegisters s t ∧ RegWritten a v 2 s t ∧
      ∀ n, v.getLsbD n = ((s.reg b).getLsbD n != (s.reg c).getLsbD n)

/-! ### The instruction pointer as an operand, and bits that do not matter -/

/-- 40_fetch_execute.md, section 3: the advance is a 16-bit write, by the length of the instruction's encoding, for every
instruction that ends and whose destination is not register 15, and for every one that faults; and by 1 at the end of a
suspended SBUS, or RBUS into another register. The wrap is the spec's decision D9: log entry 15. -/
def Obligations.IpAdvanceWraps : Prop :=
  (∀ (s : State) (w : Nat), (retired w s).ip.toNat = (s.ip.toNat + w) % 65536 ∧
    ∀ op f, (faulted op f w s).ip.toNat = (s.ip.toNat + w) % 65536) ∧
  (∀ (i : Instr) (s t : State), exec i s = .next t → t.runState = .waiting →
    destination i s ≠ some ipReg ∨ t.reports ≠ s.reports →
    t.ip.toNat = (s.ip.toNat + (encode i).length) % 65536) ∧
  ∀ (s t : State) (c : Byte), step s = .next t → t.runState = .waiting →
    (∃ v, s.runState = .suspendedSend c v) ∨ (∃ k, s.runState = .suspendedRecv c k ∧ k ≠ ipReg) →
    t.ip.toNat = (s.ip.toNat + 1) % 65536

/-- An instruction that writes register 15 as an ordinary destination continues at the value it would have written to any
other register plus its width, modulo 2^16: the ALU eight, SET, LOAD, WBUS (which ready channel: log entry 8), RBUS, at once or
after a suspension (the spec derives this: 40_fetch_execute.md, section 3; the wrap is its decision D9, log entry 15). -/
def Obligations.DestinationFifteenIsAJump : Prop :=
  (∀ mk ∈ ([.add, .sub, .shl, .shr, .and, .or, .not, .xor] : List (Reg → Reg → Reg → Instr)),
    ∀ (a b c : Reg) (s : State), a ≠ ipReg →
      ∃ t u, exec (mk ipReg b c) s = .next t ∧ exec (mk a b c) s = .next u ∧
        t.ip.toNat = ((u.reg a).toNat + 2) % 65536) ∧
  ∀ (b : Reg) (s : State),
    (∀ imm, s.ip.toNat + 2 < s.cfg.memSize →
      ∃ t, exec (.set ipReg imm) s = .next t ∧ t.ip.toNat = (imm.toNat + 3) % 65536) ∧
    ((s.reg b).toNat + 1 < s.cfg.memSize →
      ∃ t, exec (.load ipReg b 0) s = .next t ∧
        t.ip.toNat = ((s.byteAt (s.reg b).toNat).toNat * 256 + (s.byteAt ((s.reg b).toNat + 1)).toNat + 2) % 65536) ∧
    (∀ c, c ≠ 0 → (s.reg b).toNat < s.cfg.memSize →
      ∃ t, exec (.load ipReg b c) s = .next t ∧
        t.ip.toNat = ((highByte s.ip).toNat * 256 + (s.byteAt (s.reg b).toNat).toNat + 2) % 65536) ∧
    (lowByte (s.reg b) = 15 → (∀ ch ∈ s.channels, ch.inbound = []) →
      ∃ t, exec (.wbus b) s = .next t ∧ t.ip.toNat = 0x0101) ∧
    (lowByte (s.reg b) = 15 → (∃ ch ∈ s.channels, ch.inbound ≠ []) →
      ∃ t, exec (.wbus b) s = .next t ∧
        ∃ ch ∈ s.channels, ch.inbound ≠ [] ∧ t.ip.toNat = ch.params.addr.toNat + 1) ∧
    (lowByte (s.reg b) = 15 → ∀ ch v rest, s.channel? (highByte (s.reg b)) = some ch → ch.inbound = v :: rest →
      ∃ t, exec (.rbus b) s = .next t ∧ t.ip.toNat = (v.toNat + 1) % 65536) ∧
    ∀ c ch v rest, s.runState = .suspendedRecv c ipReg → s.channel? c = some ch → ch.inbound = v :: rest →
      ∃ t, step s = .next t ∧ t.ip.toNat = (v.toNat + 1) % 65536

/-- 30_encoding.md, section 4: which nonzero value the third field of LOAD and STORE has does not matter. -/
def Obligations.NonzeroSizeFlagsAreEqual : Prop :=
  ∀ (a b : Reg) (c c' : Nibble) (s : State), c ≠ 0 → c' ≠ 0 →
    exec (.load a b c) s = exec (.load a b c') s ∧ exec (.store a b c) s = exec (.store a b c') s
end

