-- ==== Sys2Proof/Laws/State.lean ====
section
/-! SUPPORT. The small lemmas of the state's updates: what each leaves in each field, and what it does to the reads of a
register, of a byte and of a channel. -/

namespace Sys2Proof.Machine

variable (s : State)

/-! ### setReg -/

@[simp] theorem setReg_regs (r : Reg) (v : Word) : (s.setReg r v).regs = s.regs.set r.toNat v r.isLt := rfl
@[simp] theorem setReg_mem (r : Reg) (v : Word) : (s.setReg r v).mem = s.mem := rfl
@[simp] theorem setReg_cfg (r : Reg) (v : Word) : (s.setReg r v).cfg = s.cfg := rfl
@[simp] theorem setReg_boot (r : Reg) (v : Word) : (s.setReg r v).boot = s.boot := rfl
@[simp] theorem setReg_channels (r : Reg) (v : Word) : (s.setReg r v).channels = s.channels := rfl
@[simp] theorem setReg_irqPending (r : Reg) (v : Word) : (s.setReg r v).irqPending = s.irqPending := rfl
@[simp] theorem setReg_runState (r : Reg) (v : Word) : (s.setReg r v).runState = s.runState := rfl
@[simp] theorem setReg_reports (r : Reg) (v : Word) : (s.setReg r v).reports = s.reports := rfl
@[simp] theorem setReg_sent (r : Reg) (v : Word) : (s.setReg r v).sent = s.sent := rfl
@[simp] theorem setReg_env (r : Reg) (v : Word) : (s.setReg r v).env = s.env := rfl
@[simp] theorem setReg_whichCount (r : Reg) (v : Word) : (s.setReg r v).whichCount = s.whichCount := rfl
@[simp] theorem setReg_irqPassed (r : Reg) (v : Word) : (s.setReg r v).irqPassed = s.irqPassed := rfl
@[simp] theorem setReg_byteAt (r : Reg) (v : Word) (x : Nat) : (s.setReg r v).byteAt x = s.byteAt x := rfl
@[simp] theorem setReg_channel (r : Reg) (v : Word) (x : Byte) : (s.setReg r v).channel? x = s.channel? x := rfl
@[simp] theorem setReg_ready (r : Reg) (v : Word) : (s.setReg r v).ready = s.ready := rfl

/-! ### setIp -/

@[simp] theorem setIp_regs (v : Word) : (s.setIp v).regs = s.regs.set 15 v := rfl
@[simp] theorem setIp_mem (v : Word) : (s.setIp v).mem = s.mem := rfl
@[simp] theorem setIp_cfg (v : Word) : (s.setIp v).cfg = s.cfg := rfl
@[simp] theorem setIp_boot (v : Word) : (s.setIp v).boot = s.boot := rfl
@[simp] theorem setIp_channels (v : Word) : (s.setIp v).channels = s.channels := rfl
@[simp] theorem setIp_irqPending (v : Word) : (s.setIp v).irqPending = s.irqPending := rfl
@[simp] theorem setIp_runState (v : Word) : (s.setIp v).runState = s.runState := rfl
@[simp] theorem setIp_reports (v : Word) : (s.setIp v).reports = s.reports := rfl
@[simp] theorem setIp_sent (v : Word) : (s.setIp v).sent = s.sent := rfl
@[simp] theorem setIp_env (v : Word) : (s.setIp v).env = s.env := rfl
@[simp] theorem setIp_whichCount (v : Word) : (s.setIp v).whichCount = s.whichCount := rfl
@[simp] theorem setIp_irqPassed (v : Word) : (s.setIp v).irqPassed = s.irqPassed := rfl
@[simp] theorem setIp_byteAt (v : Word) (x : Nat) : (s.setIp v).byteAt x = s.byteAt x := rfl
@[simp] theorem setIp_channel (v : Word) (x : Byte) : (s.setIp v).channel? x = s.channel? x := rfl
@[simp] theorem setIp_ready (v : Word) : (s.setIp v).ready = s.ready := rfl

/-! ### setRegLow -/

@[simp] theorem setRegLow_mem (r : Reg) (b : Byte) : (s.setRegLow r b).mem = s.mem := rfl
@[simp] theorem setRegLow_cfg (r : Reg) (b : Byte) : (s.setRegLow r b).cfg = s.cfg := rfl
@[simp] theorem setRegLow_boot (r : Reg) (b : Byte) : (s.setRegLow r b).boot = s.boot := rfl
@[simp] theorem setRegLow_channels (r : Reg) (b : Byte) : (s.setRegLow r b).channels = s.channels := rfl
@[simp] theorem setRegLow_irqPending (r : Reg) (b : Byte) : (s.setRegLow r b).irqPending = s.irqPending := rfl
@[simp] theorem setRegLow_runState (r : Reg) (b : Byte) : (s.setRegLow r b).runState = s.runState := rfl
@[simp] theorem setRegLow_reports (r : Reg) (b : Byte) : (s.setRegLow r b).reports = s.reports := rfl
@[simp] theorem setRegLow_sent (r : Reg) (b : Byte) : (s.setRegLow r b).sent = s.sent := rfl
@[simp] theorem setRegLow_env (r : Reg) (b : Byte) : (s.setRegLow r b).env = s.env := rfl
@[simp] theorem setRegLow_whichCount (r : Reg) (b : Byte) : (s.setRegLow r b).whichCount = s.whichCount := rfl
@[simp] theorem setRegLow_irqPassed (r : Reg) (b : Byte) : (s.setRegLow r b).irqPassed = s.irqPassed := rfl
@[simp] theorem setRegLow_byteAt (r : Reg) (b : Byte) (x : Nat) : (s.setRegLow r b).byteAt x = s.byteAt x := rfl
@[simp] theorem setRegLow_channel (r : Reg) (b : Byte) (x : Byte) : (s.setRegLow r b).channel? x = s.channel? x := rfl
@[simp] theorem setRegLow_ready (r : Reg) (b : Byte) : (s.setRegLow r b).ready = s.ready := rfl

/-! ### setRegHigh -/

@[simp] theorem setRegHigh_mem (r : Reg) (b : Byte) : (s.setRegHigh r b).mem = s.mem := rfl
@[simp] theorem setRegHigh_cfg (r : Reg) (b : Byte) : (s.setRegHigh r b).cfg = s.cfg := rfl
@[simp] theorem setRegHigh_boot (r : Reg) (b : Byte) : (s.setRegHigh r b).boot = s.boot := rfl
@[simp] theorem setRegHigh_channels (r : Reg) (b : Byte) : (s.setRegHigh r b).channels = s.channels := rfl
@[simp] theorem setRegHigh_irqPending (r : Reg) (b : Byte) : (s.setRegHigh r b).irqPending = s.irqPending := rfl
@[simp] theorem setRegHigh_runState (r : Reg) (b : Byte) : (s.setRegHigh r b).runState = s.runState := rfl
@[simp] theorem setRegHigh_reports (r : Reg) (b : Byte) : (s.setRegHigh r b).reports = s.reports := rfl
@[simp] theorem setRegHigh_sent (r : Reg) (b : Byte) : (s.setRegHigh r b).sent = s.sent := rfl
@[simp] theorem setRegHigh_env (r : Reg) (b : Byte) : (s.setRegHigh r b).env = s.env := rfl
@[simp] theorem setRegHigh_whichCount (r : Reg) (b : Byte) : (s.setRegHigh r b).whichCount = s.whichCount := rfl
@[simp] theorem setRegHigh_irqPassed (r : Reg) (b : Byte) : (s.setRegHigh r b).irqPassed = s.irqPassed := rfl
@[simp] theorem setRegHigh_byteAt (r : Reg) (b : Byte) (x : Nat) : (s.setRegHigh r b).byteAt x = s.byteAt x := rfl
@[simp] theorem setRegHigh_channel (r : Reg) (b : Byte) (x : Byte) : (s.setRegHigh r b).channel? x = s.channel? x := rfl
@[simp] theorem setRegHigh_ready (r : Reg) (b : Byte) : (s.setRegHigh r b).ready = s.ready := rfl

/-! ### setByte -/

@[simp] theorem setByte_regs (a : Nat) (v : Byte) : (s.setByte a v).regs = s.regs := rfl
@[simp] theorem setByte_mem (a : Nat) (v : Byte) : (s.setByte a v).mem = Memory.write s.mem a v := rfl
@[simp] theorem setByte_cfg (a : Nat) (v : Byte) : (s.setByte a v).cfg = s.cfg := rfl
@[simp] theorem setByte_boot (a : Nat) (v : Byte) : (s.setByte a v).boot = s.boot := rfl
@[simp] theorem setByte_channels (a : Nat) (v : Byte) : (s.setByte a v).channels = s.channels := rfl
@[simp] theorem setByte_irqPending (a : Nat) (v : Byte) : (s.setByte a v).irqPending = s.irqPending := rfl
@[simp] theorem setByte_runState (a : Nat) (v : Byte) : (s.setByte a v).runState = s.runState := rfl
@[simp] theorem setByte_reports (a : Nat) (v : Byte) : (s.setByte a v).reports = s.reports := rfl
@[simp] theorem setByte_sent (a : Nat) (v : Byte) : (s.setByte a v).sent = s.sent := rfl
@[simp] theorem setByte_env (a : Nat) (v : Byte) : (s.setByte a v).env = s.env := rfl
@[simp] theorem setByte_whichCount (a : Nat) (v : Byte) : (s.setByte a v).whichCount = s.whichCount := rfl
@[simp] theorem setByte_irqPassed (a : Nat) (v : Byte) : (s.setByte a v).irqPassed = s.irqPassed := rfl
@[simp] theorem setByte_reg (a : Nat) (v : Byte) (q : Reg) : (s.setByte a v).reg q = s.reg q := rfl
@[simp] theorem setByte_ip (a : Nat) (v : Byte) : (s.setByte a v).ip = s.ip := rfl
@[simp] theorem setByte_channel (a : Nat) (v : Byte) (x : Byte) : (s.setByte a v).channel? x = s.channel? x := rfl
@[simp] theorem setByte_ready (a : Nat) (v : Byte) : (s.setByte a v).ready = s.ready := rfl

/-! ### advanceIp -/

@[simp] theorem advanceIp_mem (w : Nat) : (advanceIp w s).mem = s.mem := rfl
@[simp] theorem advanceIp_cfg (w : Nat) : (advanceIp w s).cfg = s.cfg := rfl
@[simp] theorem advanceIp_boot (w : Nat) : (advanceIp w s).boot = s.boot := rfl
@[simp] theorem advanceIp_channels (w : Nat) : (advanceIp w s).channels = s.channels := rfl
@[simp] theorem advanceIp_irqPending (w : Nat) : (advanceIp w s).irqPending = s.irqPending := rfl
@[simp] theorem advanceIp_runState (w : Nat) : (advanceIp w s).runState = s.runState := rfl
@[simp] theorem advanceIp_reports (w : Nat) : (advanceIp w s).reports = s.reports := rfl
@[simp] theorem advanceIp_sent (w : Nat) : (advanceIp w s).sent = s.sent := rfl
@[simp] theorem advanceIp_env (w : Nat) : (advanceIp w s).env = s.env := rfl
@[simp] theorem advanceIp_whichCount (w : Nat) : (advanceIp w s).whichCount = s.whichCount := rfl
@[simp] theorem advanceIp_irqPassed (w : Nat) : (advanceIp w s).irqPassed = s.irqPassed := rfl
@[simp] theorem advanceIp_byteAt (w : Nat) (x : Nat) : (advanceIp w s).byteAt x = s.byteAt x := rfl
@[simp] theorem advanceIp_channel (w : Nat) (x : Byte) : (advanceIp w s).channel? x = s.channel? x := rfl
@[simp] theorem advanceIp_ready (w : Nat) : (advanceIp w s).ready = s.ready := rfl

/-! ### toWaitPoint -/

@[simp] theorem toWaitPoint_regs : (toWaitPoint s).regs = s.regs := rfl
@[simp] theorem toWaitPoint_mem : (toWaitPoint s).mem = s.mem := rfl
@[simp] theorem toWaitPoint_cfg : (toWaitPoint s).cfg = s.cfg := rfl
@[simp] theorem toWaitPoint_boot : (toWaitPoint s).boot = s.boot := rfl
@[simp] theorem toWaitPoint_channels : (toWaitPoint s).channels = s.channels := rfl
@[simp] theorem toWaitPoint_irqPending : (toWaitPoint s).irqPending = s.irqPending := rfl
@[simp] theorem toWaitPoint_runState : (toWaitPoint s).runState = .waiting := rfl
@[simp] theorem toWaitPoint_reports : (toWaitPoint s).reports = s.reports := rfl
@[simp] theorem toWaitPoint_sent : (toWaitPoint s).sent = s.sent := rfl
@[simp] theorem toWaitPoint_env : (toWaitPoint s).env = s.env := rfl
@[simp] theorem toWaitPoint_whichCount : (toWaitPoint s).whichCount = s.whichCount := rfl
@[simp] theorem toWaitPoint_irqPassed : (toWaitPoint s).irqPassed = s.irqPassed := rfl
@[simp] theorem toWaitPoint_reg (q : Reg) : (toWaitPoint s).reg q = s.reg q := rfl
@[simp] theorem toWaitPoint_ip : (toWaitPoint s).ip = s.ip := rfl
@[simp] theorem toWaitPoint_byteAt (x : Nat) : (toWaitPoint s).byteAt x = s.byteAt x := rfl
@[simp] theorem toWaitPoint_channel (x : Byte) : (toWaitPoint s).channel? x = s.channel? x := rfl
@[simp] theorem toWaitPoint_ready : (toWaitPoint s).ready = s.ready := rfl

/-! ### retired -/

@[simp] theorem retired_mem (w : Nat) : (retired w s).mem = s.mem := rfl
@[simp] theorem retired_cfg (w : Nat) : (retired w s).cfg = s.cfg := rfl
@[simp] theorem retired_boot (w : Nat) : (retired w s).boot = s.boot := rfl
@[simp] theorem retired_channels (w : Nat) : (retired w s).channels = s.channels := rfl
@[simp] theorem retired_irqPending (w : Nat) : (retired w s).irqPending = s.irqPending := rfl
@[simp] theorem retired_runState (w : Nat) : (retired w s).runState = .waiting := rfl
@[simp] theorem retired_reports (w : Nat) : (retired w s).reports = s.reports := rfl
@[simp] theorem retired_sent (w : Nat) : (retired w s).sent = s.sent := rfl
@[simp] theorem retired_env (w : Nat) : (retired w s).env = s.env := rfl
@[simp] theorem retired_whichCount (w : Nat) : (retired w s).whichCount = s.whichCount := rfl
@[simp] theorem retired_irqPassed (w : Nat) : (retired w s).irqPassed = s.irqPassed := rfl
@[simp] theorem retired_byteAt (w : Nat) (x : Nat) : (retired w s).byteAt x = s.byteAt x := rfl
@[simp] theorem retired_channel (w : Nat) (x : Byte) : (retired w s).channel? x = s.channel? x := rfl
@[simp] theorem retired_ready (w : Nat) : (retired w s).ready = s.ready := rfl

/-! ### emitReport -/

@[simp] theorem emitReport_regs (r : FaultReport) : (emitReport r s).regs = s.regs := rfl
@[simp] theorem emitReport_mem (r : FaultReport) : (emitReport r s).mem = s.mem := rfl
@[simp] theorem emitReport_cfg (r : FaultReport) : (emitReport r s).cfg = s.cfg := rfl
@[simp] theorem emitReport_boot (r : FaultReport) : (emitReport r s).boot = s.boot := rfl
@[simp] theorem emitReport_channels (r : FaultReport) : (emitReport r s).channels = s.channels := rfl
@[simp] theorem emitReport_irqPending (r : FaultReport) : (emitReport r s).irqPending = s.irqPending := rfl
@[simp] theorem emitReport_runState (r : FaultReport) : (emitReport r s).runState = s.runState := rfl
@[simp] theorem emitReport_reports (r : FaultReport) : (emitReport r s).reports = s.reports ++ [r] := rfl
@[simp] theorem emitReport_sent (r : FaultReport) : (emitReport r s).sent = s.sent := rfl
@[simp] theorem emitReport_env (r : FaultReport) : (emitReport r s).env = s.env := rfl
@[simp] theorem emitReport_whichCount (r : FaultReport) : (emitReport r s).whichCount = s.whichCount := rfl
@[simp] theorem emitReport_irqPassed (r : FaultReport) : (emitReport r s).irqPassed = s.irqPassed := rfl
@[simp] theorem emitReport_reg (r : FaultReport) (q : Reg) : (emitReport r s).reg q = s.reg q := rfl
@[simp] theorem emitReport_ip (r : FaultReport) : (emitReport r s).ip = s.ip := rfl
@[simp] theorem emitReport_byteAt (r : FaultReport) (x : Nat) : (emitReport r s).byteAt x = s.byteAt x := rfl
@[simp] theorem emitReport_channel (r : FaultReport) (x : Byte) : (emitReport r s).channel? x = s.channel? x := rfl
@[simp] theorem emitReport_ready (r : FaultReport) : (emitReport r s).ready = s.ready := rfl

/-! ### faulted -/

@[simp] theorem faulted_mem (op : Option Nibble) (f : InstrFault) (w : Nat) : (faulted op f w s).mem = s.mem := rfl
@[simp] theorem faulted_cfg (op : Option Nibble) (f : InstrFault) (w : Nat) : (faulted op f w s).cfg = s.cfg := rfl
@[simp] theorem faulted_boot (op : Option Nibble) (f : InstrFault) (w : Nat) : (faulted op f w s).boot = s.boot := rfl
@[simp] theorem faulted_channels (op : Option Nibble) (f : InstrFault) (w : Nat) : (faulted op f w s).channels = s.channels := rfl
@[simp] theorem faulted_irqPending (op : Option Nibble) (f : InstrFault) (w : Nat) : (faulted op f w s).irqPending = s.irqPending := rfl
@[simp] theorem faulted_runState (op : Option Nibble) (f : InstrFault) (w : Nat) : (faulted op f w s).runState = .waiting := rfl
@[simp] theorem faulted_reports (op : Option Nibble) (f : InstrFault) (w : Nat) : (faulted op f w s).reports = s.reports ++ [{ fault := f, opcode := op, ip := s.ip }] := rfl
@[simp] theorem faulted_sent (op : Option Nibble) (f : InstrFault) (w : Nat) : (faulted op f w s).sent = s.sent := rfl
@[simp] theorem faulted_env (op : Option Nibble) (f : InstrFault) (w : Nat) : (faulted op f w s).env = s.env := rfl
@[simp] theorem faulted_whichCount (op : Option Nibble) (f : InstrFault) (w : Nat) : (faulted op f w s).whichCount = s.whichCount := rfl
@[simp] theorem faulted_irqPassed (op : Option Nibble) (f : InstrFault) (w : Nat) : (faulted op f w s).irqPassed = s.irqPassed := rfl
@[simp] theorem faulted_byteAt (op : Option Nibble) (f : InstrFault) (w : Nat) (x : Nat) : (faulted op f w s).byteAt x = s.byteAt x := rfl
@[simp] theorem faulted_channel (op : Option Nibble) (f : InstrFault) (w : Nat) (x : Byte) : (faulted op f w s).channel? x = s.channel? x := rfl
@[simp] theorem faulted_ready (op : Option Nibble) (f : InstrFault) (w : Nat) : (faulted op f w s).ready = s.ready := rfl

/-! ### suspend -/

@[simp] theorem suspend_regs (r : RunState) : (suspend r s).regs = s.regs := rfl
@[simp] theorem suspend_mem (r : RunState) : (suspend r s).mem = s.mem := rfl
@[simp] theorem suspend_cfg (r : RunState) : (suspend r s).cfg = s.cfg := rfl
@[simp] theorem suspend_boot (r : RunState) : (suspend r s).boot = s.boot := rfl
@[simp] theorem suspend_channels (r : RunState) : (suspend r s).channels = s.channels := rfl
@[simp] theorem suspend_irqPending (r : RunState) : (suspend r s).irqPending = s.irqPending := rfl
@[simp] theorem suspend_runState (r : RunState) : (suspend r s).runState = r := rfl
@[simp] theorem suspend_reports (r : RunState) : (suspend r s).reports = s.reports := rfl
@[simp] theorem suspend_sent (r : RunState) : (suspend r s).sent = s.sent := rfl
@[simp] theorem suspend_env (r : RunState) : (suspend r s).env = s.env := rfl
@[simp] theorem suspend_whichCount (r : RunState) : (suspend r s).whichCount = s.whichCount := rfl
@[simp] theorem suspend_irqPassed (r : RunState) : (suspend r s).irqPassed = s.irqPassed := rfl
@[simp] theorem suspend_reg (r : RunState) (q : Reg) : (suspend r s).reg q = s.reg q := rfl
@[simp] theorem suspend_ip (r : RunState) : (suspend r s).ip = s.ip := rfl
@[simp] theorem suspend_byteAt (r : RunState) (x : Nat) : (suspend r s).byteAt x = s.byteAt x := rfl
@[simp] theorem suspend_channel (r : RunState) (x : Byte) : (suspend r s).channel? x = s.channel? x := rfl
@[simp] theorem suspend_ready (r : RunState) : (suspend r s).ready = s.ready := rfl

/-! ### updateChannel -/

@[simp] theorem updateChannel_regs (c : Byte) (f : Channel → Channel) : (s.updateChannel c f).regs = s.regs := rfl
@[simp] theorem updateChannel_mem (c : Byte) (f : Channel → Channel) : (s.updateChannel c f).mem = s.mem := rfl
@[simp] theorem updateChannel_cfg (c : Byte) (f : Channel → Channel) : (s.updateChannel c f).cfg = s.cfg := rfl
@[simp] theorem updateChannel_boot (c : Byte) (f : Channel → Channel) : (s.updateChannel c f).boot = s.boot := rfl
@[simp] theorem updateChannel_channels (c : Byte) (f : Channel → Channel) : (s.updateChannel c f).channels = s.channels.map (fun ch => if ch.params.addr == c then f ch else ch) := rfl
@[simp] theorem updateChannel_irqPending (c : Byte) (f : Channel → Channel) : (s.updateChannel c f).irqPending = s.irqPending := rfl
@[simp] theorem updateChannel_runState (c : Byte) (f : Channel → Channel) : (s.updateChannel c f).runState = s.runState := rfl
@[simp] theorem updateChannel_reports (c : Byte) (f : Channel → Channel) : (s.updateChannel c f).reports = s.reports := rfl
@[simp] theorem updateChannel_sent (c : Byte) (f : Channel → Channel) : (s.updateChannel c f).sent = s.sent := rfl
@[simp] theorem updateChannel_env (c : Byte) (f : Channel → Channel) : (s.updateChannel c f).env = s.env := rfl
@[simp] theorem updateChannel_whichCount (c : Byte) (f : Channel → Channel) : (s.updateChannel c f).whichCount = s.whichCount := rfl
@[simp] theorem updateChannel_irqPassed (c : Byte) (f : Channel → Channel) : (s.updateChannel c f).irqPassed = s.irqPassed := rfl
@[simp] theorem updateChannel_reg (c : Byte) (f : Channel → Channel) (q : Reg) : (s.updateChannel c f).reg q = s.reg q := rfl
@[simp] theorem updateChannel_ip (c : Byte) (f : Channel → Channel) : (s.updateChannel c f).ip = s.ip := rfl
@[simp] theorem updateChannel_byteAt (c : Byte) (f : Channel → Channel) (x : Nat) : (s.updateChannel c f).byteAt x = s.byteAt x := rfl

/-! ### sendWord -/

@[simp] theorem sendWord_regs (c : Byte) (v : Word) : (sendWord c v s).regs = s.regs := rfl
@[simp] theorem sendWord_mem (c : Byte) (v : Word) : (sendWord c v s).mem = s.mem := rfl
@[simp] theorem sendWord_cfg (c : Byte) (v : Word) : (sendWord c v s).cfg = s.cfg := rfl
@[simp] theorem sendWord_boot (c : Byte) (v : Word) : (sendWord c v s).boot = s.boot := rfl
@[simp] theorem sendWord_channels (c : Byte) (v : Word) : (sendWord c v s).channels = (s.updateChannel c (Channel.accept v)).channels := rfl
@[simp] theorem sendWord_irqPending (c : Byte) (v : Word) : (sendWord c v s).irqPending = s.irqPending := rfl
@[simp] theorem sendWord_runState (c : Byte) (v : Word) : (sendWord c v s).runState = s.runState := rfl
@[simp] theorem sendWord_reports (c : Byte) (v : Word) : (sendWord c v s).reports = s.reports := rfl
@[simp] theorem sendWord_sent (c : Byte) (v : Word) : (sendWord c v s).sent = s.sent ++ [(c, v)] := rfl
@[simp] theorem sendWord_env (c : Byte) (v : Word) : (sendWord c v s).env = s.env := rfl
@[simp] theorem sendWord_whichCount (c : Byte) (v : Word) : (sendWord c v s).whichCount = s.whichCount := rfl
@[simp] theorem sendWord_irqPassed (c : Byte) (v : Word) : (sendWord c v s).irqPassed = s.irqPassed := rfl
@[simp] theorem sendWord_reg (c : Byte) (v : Word) (q : Reg) : (sendWord c v s).reg q = s.reg q := rfl
@[simp] theorem sendWord_ip (c : Byte) (v : Word) : (sendWord c v s).ip = s.ip := rfl
@[simp] theorem sendWord_byteAt (c : Byte) (v : Word) (x : Nat) : (sendWord c v s).byteAt x = s.byteAt x := rfl

/-! ### whichAsked -/

@[simp] theorem whichAsked_regs : (whichAsked s).regs = s.regs := rfl
@[simp] theorem whichAsked_mem : (whichAsked s).mem = s.mem := rfl
@[simp] theorem whichAsked_cfg : (whichAsked s).cfg = s.cfg := rfl
@[simp] theorem whichAsked_boot : (whichAsked s).boot = s.boot := rfl
@[simp] theorem whichAsked_channels : (whichAsked s).channels = s.channels := rfl
@[simp] theorem whichAsked_irqPending : (whichAsked s).irqPending = s.irqPending := rfl
@[simp] theorem whichAsked_runState : (whichAsked s).runState = s.runState := rfl
@[simp] theorem whichAsked_reports : (whichAsked s).reports = s.reports := rfl
@[simp] theorem whichAsked_sent : (whichAsked s).sent = s.sent := rfl
@[simp] theorem whichAsked_env : (whichAsked s).env = s.env := rfl
@[simp] theorem whichAsked_whichCount : (whichAsked s).whichCount = s.whichCount + 1 := rfl
@[simp] theorem whichAsked_irqPassed : (whichAsked s).irqPassed = s.irqPassed := rfl
@[simp] theorem whichAsked_reg (q : Reg) : (whichAsked s).reg q = s.reg q := rfl
@[simp] theorem whichAsked_ip : (whichAsked s).ip = s.ip := rfl
@[simp] theorem whichAsked_byteAt (x : Nat) : (whichAsked s).byteAt x = s.byteAt x := rfl
@[simp] theorem whichAsked_channel (x : Byte) : (whichAsked s).channel? x = s.channel? x := rfl
@[simp] theorem whichAsked_ready : (whichAsked s).ready = s.ready := rfl

/-! ### nextIteration -/

@[simp] theorem nextIteration_regs : (nextIteration s).regs = s.regs := rfl
@[simp] theorem nextIteration_mem : (nextIteration s).mem = s.mem := rfl
@[simp] theorem nextIteration_cfg : (nextIteration s).cfg = s.cfg := rfl
@[simp] theorem nextIteration_boot : (nextIteration s).boot = s.boot := rfl
@[simp] theorem nextIteration_channels : (nextIteration s).channels = s.channels := rfl
@[simp] theorem nextIteration_irqPending : (nextIteration s).irqPending = s.irqPending := rfl
@[simp] theorem nextIteration_runState : (nextIteration s).runState = .running := rfl
@[simp] theorem nextIteration_reports : (nextIteration s).reports = s.reports := rfl
@[simp] theorem nextIteration_sent : (nextIteration s).sent = s.sent := rfl
@[simp] theorem nextIteration_env : (nextIteration s).env = s.env := rfl
@[simp] theorem nextIteration_whichCount : (nextIteration s).whichCount = s.whichCount := rfl
@[simp] theorem nextIteration_irqPassed : (nextIteration s).irqPassed = s.irqPassed := rfl
@[simp] theorem nextIteration_reg (q : Reg) : (nextIteration s).reg q = s.reg q := rfl
@[simp] theorem nextIteration_ip : (nextIteration s).ip = s.ip := rfl
@[simp] theorem nextIteration_byteAt (x : Nat) : (nextIteration s).byteAt x = s.byteAt x := rfl
@[simp] theorem nextIteration_channel (x : Byte) : (nextIteration s).channel? x = s.channel? x := rfl
@[simp] theorem nextIteration_ready : (nextIteration s).ready = s.ready := rfl

/-! ### endRun -/

@[simp] theorem endRun_regs : (endRun s).regs = s.regs := rfl
@[simp] theorem endRun_mem : (endRun s).mem = s.mem := rfl
@[simp] theorem endRun_cfg : (endRun s).cfg = s.cfg := rfl
@[simp] theorem endRun_boot : (endRun s).boot = s.boot := rfl
@[simp] theorem endRun_channels : (endRun s).channels = s.channels := rfl
@[simp] theorem endRun_irqPending : (endRun s).irqPending = s.irqPending := rfl
@[simp] theorem endRun_runState : (endRun s).runState = .terminated := rfl
@[simp] theorem endRun_reports : (endRun s).reports = s.reports := rfl
@[simp] theorem endRun_sent : (endRun s).sent = s.sent := rfl
@[simp] theorem endRun_env : (endRun s).env = s.env := rfl
@[simp] theorem endRun_whichCount : (endRun s).whichCount = s.whichCount := rfl
@[simp] theorem endRun_irqPassed : (endRun s).irqPassed = s.irqPassed := rfl
@[simp] theorem endRun_reg (q : Reg) : (endRun s).reg q = s.reg q := rfl
@[simp] theorem endRun_ip : (endRun s).ip = s.ip := rfl
@[simp] theorem endRun_byteAt (x : Nat) : (endRun s).byteAt x = s.byteAt x := rfl
@[simp] theorem endRun_channel (x : Byte) : (endRun s).channel? x = s.channel? x := rfl
@[simp] theorem endRun_ready : (endRun s).ready = s.ready := rfl

end Sys2Proof.Machine
end

