-- ==== Sys2Proof/Laws/Registers.lean ====
section
/-! SUPPORT. What reading a register gives after each operation that writes one, and the two bytes of a word. -/

namespace Sys2Proof.Machine

theorem reg_setReg (s : State) (r q : Reg) (v : Word) : (s.setReg r v).reg q = if q = r then v else s.reg q := by
  simp [State.reg, State.setReg, Vector.getElem_set, BitVec.toNat_inj, eq_comm]

@[simp] theorem reg_setReg_self (s : State) (r : Reg) (v : Word) : (s.setReg r v).reg r = v := by
  simp [reg_setReg]

@[simp] theorem reg_setReg_ne (s : State) {r q : Reg} (v : Word) (h : q ≠ r) : (s.setReg r v).reg q = s.reg q := by
  simp [reg_setReg, h]

theorem ip_setReg (s : State) (r : Reg) (v : Word) : (s.setReg r v).ip = if r = ipReg then v else s.ip := by
  simp [State.ip, reg_setReg, eq_comm]

@[simp] theorem ip_setIp (s : State) (v : Word) : (s.setIp v).ip = v := reg_setReg_self s ipReg v

@[simp] theorem reg_setIp_ne (s : State) {q : Reg} (v : Word) (h : q ≠ ipReg) : (s.setIp v).reg q = s.reg q :=
  reg_setReg_ne s v h

theorem ip_advanceIp (w : Nat) (s : State) : (advanceIp w s).ip = BitVec.ofNat 16 (s.ip.toNat + w) := by
  simp [advanceIp]

@[simp] theorem reg_advanceIp_ne (w : Nat) (s : State) {q : Reg} (h : q ≠ ipReg) : (advanceIp w s).reg q = s.reg q :=
  reg_setIp_ne s _ h

@[simp] theorem reg_retired_ne (w : Nat) (s : State) {q : Reg} (h : q ≠ ipReg) : (retired w s).reg q = s.reg q :=
  reg_advanceIp_ne w s h

@[simp] theorem ip_retired (w : Nat) (s : State) : (retired w s).ip.toNat = (s.ip.toNat + w) % 65536 := by
  simp [retired, ip_advanceIp]

@[simp] theorem reg_faulted_ne (op : Option Nibble) (f : InstrFault) (w : Nat) (s : State) {q : Reg} (h : q ≠ ipReg) :
    (faulted op f w s).reg q = s.reg q := reg_advanceIp_ne w s h

@[simp] theorem ip_faulted (op : Option Nibble) (f : InstrFault) (w : Nat) (s : State) :
    (faulted op f w s).ip.toNat = (s.ip.toNat + w) % 65536 := by
  simp [faulted, ip_advanceIp]

/-- The upper part of two bit vectors set side by side. -/
theorem upper_append {n m : Nat} (x : BitVec n) (y : BitVec m) : (x ++ y).extractLsb' m n = x := by
  ext i hi; simp [← BitVec.getLsbD_eq_getElem, BitVec.getLsbD_append, hi]

/-- The lower part of two bit vectors set side by side. -/
theorem lower_append {n m : Nat} (x : BitVec n) (y : BitVec m) : (x ++ y).extractLsb' 0 m = y := by
  ext i hi; simp [← BitVec.getLsbD_eq_getElem, BitVec.getLsbD_append, hi]

@[simp] theorem highByte_wordOf (h l : Byte) : highByte (wordOf h l) = h := upper_append h l

@[simp] theorem lowByte_wordOf (h l : Byte) : lowByte (wordOf h l) = l := lower_append h l

@[simp] theorem wordOf_bytes (v : Word) : wordOf (highByte v) (lowByte v) = v :=
  BitVec.extractLsb'_append_extractLsb' (w := 8) (len := 8)

@[simp] theorem highNibble_byteOf (h l : Nibble) : highNibble (byteOf h l) = h := upper_append h l

@[simp] theorem lowNibble_byteOf (h l : Nibble) : lowNibble (byteOf h l) = l := lower_append h l

@[simp] theorem byteOf_nibbles (b : Byte) : byteOf (highNibble b) (lowNibble b) = b :=
  BitVec.extractLsb'_append_extractLsb' (w := 4) (len := 4)

/-- A word written to a register by a whole write, a low-byte write or a high-byte write (10_state.md R21). -/
theorem reg_setRegLow_self (s : State) (r : Reg) (b : Byte) :
    (s.setRegLow r b).reg r = wordOf (highByte (s.reg r)) b := reg_setReg_self s r _

theorem reg_setRegHigh_self (s : State) (r : Reg) (b : Byte) :
    (s.setRegHigh r b).reg r = wordOf b (lowByte (s.reg r)) := reg_setReg_self s r _


end Sys2Proof.Machine
end

