-- ==== Sys2Proof/Laws/Memory.lean ====
section
/-! SUPPORT. Memory: read after write, the canonical form, and what each of the four memory operations can answer. -/

namespace Sys2Proof.Machine

/-- The cells above `a` in a list in canonical form, as a fact about the reads. -/
theorem Memory.read_below (m : Memory) (lo a : Nat) (h : Memory.wfAbove (some lo) m = true) (ha : a ≤ lo) :
    Memory.read m a = Config.memInit := by
  induction m generalizing lo with
  | nil => rfl
  | cons c rest ih =>
    simp only [Memory.wfAbove, Bool.and_eq_true, decide_eq_true_eq] at h
    have hne : a ≠ c.1 := by omega
    simp only [Memory.read, hne, if_false]
    exact ih c.1 h.2 (by omega)

/-- A weaker lower bound. -/
theorem Memory.wfAbove_mono (m : Memory) (lo lo' : Nat) (hl : lo' ≤ lo) (h : Memory.wfAbove (some lo) m = true) :
    Memory.wfAbove (some lo') m = true := by
  cases m with
  | nil => rfl
  | cons c rest =>
    simp only [Memory.wfAbove, Bool.and_eq_true, decide_eq_true_eq] at h ⊢
    exact ⟨⟨by omega, h.1.2⟩, h.2⟩

/-- The form of a list above an optional bound is its form with the bound dropped, and the bound for its first cell. -/
theorem Memory.wfAbove_cons (lo : Option Nat) (c : Host.Cell) (rest : Memory) :
    Memory.wfAbove lo (c :: rest) = true ↔
      (∀ l, lo = some l → l < c.1) ∧ c.2 ≠ Config.memInit ∧ Memory.wfAbove (some c.1) rest = true := by
  cases lo <;> simp [Memory.wfAbove, and_assoc]

/-- READ AFTER WRITE on memory in canonical form: the written cell holds the value, every other what it held. -/
theorem Memory.read_write (m : Memory) (a x : Nat) (v : Byte) (lo : Option Nat) (h : Memory.wfAbove lo m = true) :
    Memory.read (Memory.write m a v) x = if x = a then v else Memory.read m x := by
  induction m generalizing lo with
  | nil =>
    simp only [Memory.write]
    split <;> split <;> simp_all [Memory.read]
  | cons c rest ih =>
    obtain ⟨b, w⟩ := c
    obtain ⟨-, -, hrest⟩ := (Memory.wfAbove_cons lo (b, w) rest).1 h
    have low : ∀ y, y ≤ b → Memory.read rest y = Config.memInit := fun y hy => Memory.read_below rest b y hrest hy
    simp only [Memory.write]
    split
    · rename_i hab
      split
      · rename_i hv
        by_cases hx : x = a
        · subst hx
          simp [Memory.read, show x ≠ b by omega, low x (by omega), hv]
        · simp [hx]
      · simp only [Memory.read]
    · split
      · rename_i hab
        subst hab
        split
        · rename_i hv
          by_cases hx : x = a
          · subst hx; simp [low x (le_refl x), hv]
          · simp [Memory.read, hx]
        · by_cases hx : x = a <;> simp [Memory.read, hx]
      · simp only [Memory.read]
        rw [ih (some b) hrest]
        by_cases hx : x = b
        · have hba : b ≠ a := fun e => by simp_all
          simp [hx, hba]
        · simp [hx]

/-- The written list keeps the canonical form above a bound that the written address respects. -/
theorem Memory.wfAbove_write (m : Memory) (a : Nat) (v : Byte) (lo : Option Nat) (h : Memory.wfAbove lo m = true)
    (ha : ∀ l, lo = some l → l < a) : Memory.wfAbove lo (Memory.write m a v) = true := by
  induction m generalizing lo with
  | nil =>
    simp only [Memory.write]
    split
    · rfl
    · rename_i hv; exact (Memory.wfAbove_cons lo (a, v) []).2 ⟨ha, hv, rfl⟩
  | cons c rest ih =>
    obtain ⟨b, w⟩ := c
    obtain ⟨hb, hw, hrest⟩ := (Memory.wfAbove_cons lo (b, w) rest).1 h
    simp only [Memory.write]
    split
    · rename_i hab
      split
      · exact h
      · rename_i hv
        exact (Memory.wfAbove_cons _ _ _).2
          ⟨ha, hv, (Memory.wfAbove_cons _ _ _).2 ⟨fun l hl => by simp_all, hw, hrest⟩⟩
    · split
      · rename_i hab
        subst hab
        split
        · cases lo with
          | some l => exact Memory.wfAbove_mono rest a l (by have := ha l rfl; omega) hrest
          | none =>
            cases rest with
            | nil => rfl
            | cons d rest' =>
              obtain ⟨-, hd, hr⟩ := (Memory.wfAbove_cons _ _ _).1 hrest
              exact (Memory.wfAbove_cons _ _ _).2 ⟨fun l hl => by simp at hl, hd, hr⟩
        · rename_i hv
          exact (Memory.wfAbove_cons _ _ _).2 ⟨ha, hv, hrest⟩
      · rename_i h1 h2
        exact (Memory.wfAbove_cons _ _ _).2
          ⟨hb, hw, ih (some b) hrest (fun l hl => by simp at hl; omega)⟩

/-- A write keeps the canonical form, so that equal memories stay equal lists. -/
theorem Memory.wf_write (m : Memory) (a : Nat) (v : Byte) (h : Memory.wf m = true) :
    Memory.wf (Memory.write m a v) = true :=
  Memory.wfAbove_write m a v none h (fun l hl => by simp at hl)

/-- A write names no address that was not named before but its own. -/
theorem Memory.mem_write (m : Memory) (a : Nat) (v : Byte) (cell : Host.Cell) (h : cell ∈ Memory.write m a v) :
    cell ∈ m ∨ cell.1 = a := by
  induction m with
  | nil =>
    simp only [Memory.write] at h
    split at h <;> simp_all
  | cons c rest ih =>
    obtain ⟨b, w⟩ := c
    simp only [Memory.write] at h
    split at h
    · split at h
      · exact .inl h
      · rcases List.mem_cons.1 h with rfl | h'
        · exact .inr rfl
        · exact .inl h'
    · split at h
      · split at h
        · exact .inl (List.mem_cons_of_mem _ h)
        · rcases List.mem_cons.1 h with rfl | h'
          · exact .inr rfl
          · exact .inl (List.mem_cons_of_mem _ h')
      · rcases List.mem_cons.1 h with rfl | h'
        · exact .inl (by simp)
        · rcases ih h' with h'' | h''
          · exact .inl (List.mem_cons_of_mem _ h'')
          · exact .inr h''

/-- A byte read after a byte is stored. -/
theorem byteAt_setByte (s : State) (a x : Nat) (v : Byte) (h : Memory.wf s.mem = true) :
    (s.setByte a v).byteAt x = if x = a then v else s.byteAt x :=
  Memory.read_write s.mem a x v none h

theorem wf_setByte (s : State) (a : Nat) (v : Byte) (h : Memory.wf s.mem = true) :
    Memory.wf (s.setByte a v).mem = true := Memory.wf_write s.mem a v h

/-! ### What each memory operation can answer, said once -/

theorem load8_cases (base offset : Word) (s : State) :
    (s.cfg.memSize ≤ effectiveAddress base offset ∧ load8 base offset s = .error (.segfault base offset)) ∨
    (effectiveAddress base offset < s.cfg.memSize ∧
      load8 base offset s = .ok (s.byteAt (effectiveAddress base offset))) := by
  unfold load8 State.memRead8
  by_cases h : s.cfg.memSize ≤ effectiveAddress base offset
  · simp [h]
  · simp [h]; omega

theorem load16_cases (base offset : Word) (s : State) :
    (s.cfg.memSize ≤ effectiveAddress base offset + 1 ∧ load16 base offset s = .error (.segfault base offset)) ∨
    (effectiveAddress base offset + 1 < s.cfg.memSize ∧
      load16 base offset s =
        .ok (wordOf (s.byteAt (effectiveAddress base offset)) (s.byteAt (effectiveAddress base offset + 1)))) := by
  unfold load16 State.memRead16
  by_cases h : s.cfg.memSize ≤ effectiveAddress base offset + 1
  · simp [h]
  · simp [h]; omega

theorem save8_cases (base offset : Word) (v : Byte) (s : State) :
    (s.cfg.memSize ≤ effectiveAddress base offset ∧ save8 base offset v s = .error (.segfault base offset)) ∨
    (effectiveAddress base offset < s.cfg.memSize ∧
      save8 base offset v s = .ok (s.setByte (effectiveAddress base offset) v)) := by
  unfold save8 State.memWrite8
  by_cases h : s.cfg.memSize ≤ effectiveAddress base offset
  · simp [h]
  · simp [h]; omega

theorem save16_cases (base offset : Word) (v : Word) (s : State) :
    (s.cfg.memSize ≤ effectiveAddress base offset + 1 ∧ save16 base offset v s = .error (.segfault base offset)) ∨
    (effectiveAddress base offset + 1 < s.cfg.memSize ∧
      save16 base offset v s =
        .ok ((s.setByte (effectiveAddress base offset) (highByte v)).setByte (effectiveAddress base offset + 1)
          (lowByte v))) := by
  unfold save16 State.memWrite16
  by_cases h : s.cfg.memSize ≤ effectiveAddress base offset + 1
  · simp [h]
  · simp [h]; omega

/-- With offset 0 the effective address is the base. -/
@[simp] theorem effectiveAddress_zero (base : Word) : effectiveAddress base 0#16 = base.toNat := rfl

/-- With offset 1 it is one more, without wrap. -/
@[simp] theorem effectiveAddress_one (base : Word) : effectiveAddress base 1#16 = base.toNat + 1 := rfl

/-! ### The accesses the instructions make: at a base with offset 0, and one byte after the instruction pointer -/

theorem load8_ok (base : Word) (s : State) (h : base.toNat < s.cfg.memSize) :
    load8 base 0 s = .ok (s.byteAt base.toNat) := by
  rcases load8_cases base 0 s with ⟨g, -⟩ | ⟨-, g⟩
  · exact absurd h (Nat.not_lt.2 g)
  · exact g

theorem load8_fault (base : Word) (s : State) (h : s.cfg.memSize ≤ base.toNat) :
    load8 base 0 s = .error (.segfault base 0) := by
  rcases load8_cases base 0 s with ⟨-, g⟩ | ⟨g, -⟩
  · exact g
  · exact absurd g (Nat.not_lt.2 h)

theorem load16_ok (base : Word) (s : State) (h : base.toNat + 1 < s.cfg.memSize) :
    load16 base 0 s = .ok (wordOf (s.byteAt base.toNat) (s.byteAt (base.toNat + 1))) := by
  rcases load16_cases base 0 s with ⟨g, -⟩ | ⟨-, g⟩
  · exact absurd h (Nat.not_lt.2 g)
  · exact g

theorem load16_fault (base : Word) (s : State) (h : s.cfg.memSize ≤ base.toNat + 1) :
    load16 base 0 s = .error (.segfault base 0) := by
  rcases load16_cases base 0 s with ⟨-, g⟩ | ⟨g, -⟩
  · exact g
  · exact absurd g (Nat.not_lt.2 h)

theorem load16_one_ok (base : Word) (s : State) (h : base.toNat + 2 < s.cfg.memSize) :
    load16 base 1 s = .ok (wordOf (s.byteAt (base.toNat + 1)) (s.byteAt (base.toNat + 2))) := by
  rcases load16_cases base 1 s with ⟨g, -⟩ | ⟨-, g⟩
  · exact absurd h (Nat.not_lt.2 g)
  · exact g

theorem load16_one_fault (base : Word) (s : State) (h : s.cfg.memSize ≤ base.toNat + 2) :
    load16 base 1 s = .error (.segfault base 1) := by
  rcases load16_cases base 1 s with ⟨-, g⟩ | ⟨g, -⟩
  · exact g
  · exact absurd g (Nat.not_lt.2 h)

theorem save8_ok (base : Word) (v : Byte) (s : State) (h : base.toNat < s.cfg.memSize) :
    save8 base 0 v s = .ok (s.setByte base.toNat v) := by
  rcases save8_cases base 0 v s with ⟨g, -⟩ | ⟨-, g⟩
  · exact absurd h (Nat.not_lt.2 g)
  · exact g

theorem save8_fault (base : Word) (v : Byte) (s : State) (h : s.cfg.memSize ≤ base.toNat) :
    save8 base 0 v s = .error (.segfault base 0) := by
  rcases save8_cases base 0 v s with ⟨-, g⟩ | ⟨g, -⟩
  · exact g
  · exact absurd g (Nat.not_lt.2 h)

theorem save16_ok (base v : Word) (s : State) (h : base.toNat + 1 < s.cfg.memSize) :
    save16 base 0 v s = .ok ((s.setByte base.toNat (highByte v)).setByte (base.toNat + 1) (lowByte v)) := by
  rcases save16_cases base 0 v s with ⟨g, -⟩ | ⟨-, g⟩
  · exact absurd h (Nat.not_lt.2 g)
  · exact g

theorem save16_fault (base v : Word) (s : State) (h : s.cfg.memSize ≤ base.toNat + 1) :
    save16 base 0 v s = .error (.segfault base 0) := by
  rcases save16_cases base 0 v s with ⟨-, g⟩ | ⟨g, -⟩
  · exact g
  · exact absurd g (Nat.not_lt.2 h)

end Sys2Proof.Machine
end

