-- ==== Sys2Proof/Laws/Channels.lean ====
section
/-! SUPPORT. What each bus operation and each move of another agent can do, said once. -/

namespace Sys2Proof.Machine

@[simp] theorem Channel.accept_params (v : Word) (ch : Channel) : (ch.accept v).params = ch.params := rfl

@[simp] theorem Channel.deliver_params (ch : Channel) : ch.deliver.params = ch.params := rfl

@[simp] theorem Channel.offer_params (v : Word) (ch : Channel) : (ch.offer v).params = ch.params := by
  unfold Channel.offer; split <;> rfl

@[simp] theorem Channel.take_params (ch : Channel) : ch.take.params = ch.params := by
  unfold Channel.take; split <;> rfl

/-- The change of channel `c` keeps every channel's parameters. -/
theorem params_changed (c : Byte) (f : Channel → Channel) (hf : ∀ x : Channel, (f x).params = x.params) (ch : Channel) :
    (if ch.params.addr == c then f ch else ch).params = ch.params := by
  split <;> simp [hf]

/-- Reading a channel after a change of channel `c`. -/
theorem channel_updateChannel (s : State) (c c' : Byte) (f : Channel → Channel)
    (hf : ∀ x : Channel, (f x).params = x.params) :
    (s.updateChannel c f).channel? c' = (s.channel? c').map (fun ch => if ch.params.addr == c then f ch else ch) := by
  unfold State.channel? State.updateChannel
  simp only [List.find?_map, Function.comp_def, params_changed c f hf]

/-- A channel is found under its own address. -/
theorem addr_of_channel (s : State) (c : Byte) (ch : Channel) (h : s.channel? c = some ch) : ch.params.addr = c := by
  simpa using List.find?_some h

/-- The changed channel, read back. -/
theorem channel_updateChannel_self (s : State) (c : Byte) (f : Channel → Channel) (ch : Channel)
    (hf : ∀ x : Channel, (f x).params = x.params) (h : s.channel? c = some ch) :
    (s.updateChannel c f).channel? c = some (f ch) := by
  simp only [channel_updateChannel s c c f hf, h, Option.map_some, addr_of_channel s c ch h, beq_self_eq_true, if_true]

/-- Every other channel is left alone. -/
theorem channel_updateChannel_ne (s : State) (c c' : Byte) (f : Channel → Channel)
    (hf : ∀ x : Channel, (f x).params = x.params) (h : c' ≠ c) :
    (s.updateChannel c f).channel? c' = s.channel? c' := by
  rw [channel_updateChannel s c c' f hf]
  cases hc : s.channel? c' with
  | none => rfl
  | some ch => simp only [Option.map_some, addr_of_channel s c' ch hc, beq_iff_eq, h, if_false]

/-- A channel is known after a change if and only if it was before. -/
theorem channel_updateChannel_isSome (s : State) (c c' : Byte) (f : Channel → Channel)
    (hf : ∀ x : Channel, (f x).params = x.params) :
    ((s.updateChannel c f).channel? c').isSome = (s.channel? c').isSome := by
  simp [channel_updateChannel s c c' f hf]

/-- The platform's parameters outlast every change of a channel that keeps them. -/
theorem params_updateChannel (s : State) (c : Byte) (f : Channel → Channel)
    (hf : ∀ x : Channel, (f x).params = x.params) :
    (s.updateChannel c f).channels.map Channel.params = s.channels.map Channel.params := by
  simp only [updateChannel_channels, List.map_map]
  exact List.map_congr_left (fun x _ => params_changed c f hf x)

/-- What `send` can answer (42_bus.md R160). -/
theorem busSend_cases (c : Byte) (v : Word) (s : State) :
    (s.channel? c = none ∧ busSend c v s = .unknown) ∨
    (∃ ch, s.channel? c = some ch ∧ ch.canAccept = false ∧ busSend c v s = .blocked) ∨
    (∃ ch, s.channel? c = some ch ∧ ch.canAccept = true ∧ busSend c v s = .done (sendWord c v s)) := by
  unfold busSend
  cases h : s.channel? c with
  | none => simp
  | some ch => cases hc : ch.canAccept <;> simp [hc]

/-- What `recv` can answer (42_bus.md R161). -/
theorem busRecv_cases (c : Byte) (s : State) :
    (s.channel? c = none ∧ busRecv c s = .unknown) ∨
    (∃ ch, s.channel? c = some ch ∧ ch.inbound = [] ∧ busRecv c s = .blocked) ∨
    (∃ ch v rest, s.channel? c = some ch ∧ ch.inbound = v :: rest ∧
      busRecv c s = .done (v, s.updateChannel c Channel.deliver)) := by
  unfold busRecv
  cases h : s.channel? c with
  | none => simp
  | some ch => cases hc : ch.inbound <;> simp [hc]

/-- A picked channel is one of the ready ones. -/
theorem pickReady_mem (ready : List Byte) (n : Nat) (c : Byte) (h : pickReady ready n = some c) : c ∈ ready := by
  match ready, h with
  | [x], h => simp [pickReady] at h; simp [h]
  | x :: y :: rest, h =>
    simp only [pickReady, Option.some.injEq] at h
    have hlt : Config.whichPick n % ((y :: rest).length + 1) < (x :: y :: rest).length := Nat.mod_lt _ (by simp)
    rw [List.getD_eq_getElem _ _ hlt] at h
    exact h ▸ List.getElem_mem hlt

/-- None is picked only where none is ready. -/
theorem pickReady_eq_none (ready : List Byte) (n : Nat) : pickReady ready n = none ↔ ready = [] := by
  match ready with
  | [] => simp [pickReady]
  | [x] => simp [pickReady]
  | x :: y :: rest => simp [pickReady]

/-- What `which` can answer (42_bus.md R162). -/
theorem busWhich_cases (s : State) :
    (busWhich s = none ∧ ∀ ch ∈ s.channels, ch.inbound = []) ∨
    (∃ c, busWhich s = some c ∧ ∃ ch ∈ s.channels, ch.inbound ≠ [] ∧ ch.params.addr = c) := by
  cases h : busWhich s with
  | none =>
    refine .inl ⟨rfl, fun ch hch => ?_⟩
    have := (pickReady_eq_none _ _).1 h
    simp only [State.ready, List.map_eq_nil_iff, List.filter_eq_nil_iff] at this
    simpa using this ch hch
  | some c =>
    have := pickReady_mem _ _ _ h
    simp only [State.ready, List.mem_map, List.mem_filter] at this
    obtain ⟨ch, ⟨hch, hne⟩, ha⟩ := this
    exact .inr ⟨c, rfl, ch, hch, by simpa using hne, ha⟩

/-- What a move of another agent can do to the state: change channels without their parameters, or raise the interrupt. -/
theorem envMove_cases (m : EnvMove) (s : State) :
    envMove m s = s ∨ envMove m s = { s with irqPending := true } ∨
    ∃ c f, (∀ ch : Channel, (f ch).params = ch.params) ∧ (∀ ch : Channel, ch.Inv → (f ch).Inv) ∧
      envMove m s = s.updateChannel c f := by
  cases m with
  | tick => exact .inl rfl
  | startBoot => exact .inl rfl
  | interrupt r => exact .inr (.inl rfl)
  | closeSink => exact .inr (.inl rfl)
  | offer c v =>
    refine .inr (.inr ⟨c, Channel.offer v, Channel.offer_params v, fun ch h => ?_, rfl⟩)
    unfold Channel.offer
    split
    · exact ⟨h.1, by simpa using ‹_›, h.2.2⟩
    · exact h
  | take c =>
    refine .inr (.inr ⟨c, Channel.take, Channel.take_params, fun ch h => ?_, rfl⟩)
    unfold Channel.take
    split
    · rename_i he; exact ⟨h.1, h.2.1, fun hr => ⟨he, by simpa using hr⟩⟩
    · rename_i w rest he
      refine ⟨?_, h.2.1, fun hr => ?_⟩
      · have := h.1; rw [he, List.length_cons] at this; exact Nat.le_of_succ_le this
      · have := (h.2.2 hr).1; simp [he] at this

/-- With no move left none is made. -/
theorem letEnvMove_nil {s : State} (h : s.env = []) : letEnvMove s = s := by unfold letEnvMove; rw [h]

/-- The next move of the script is made. -/
theorem letEnvMove_cons {s : State} {m : EnvMove} {rest : List EnvMove} (h : s.env = m :: rest) :
    letEnvMove s = envMove m { s with env := rest } := by unfold letEnvMove; rw [h]

end Sys2Proof.Machine
end

