-- ==== Sys2Proof/Laws/Encoding.lean ====
section
/-! SUPPORT. The fields of an instruction word by the bytes it is made of, and what decoding answers. -/

namespace Sys2Proof

open Machine

@[simp] theorem opcodeField_wordOf (h l : Byte) : opcodeField (wordOf h l) = highNibble h := by
  simp only [opcodeField, wordOf, highNibble]
  rw [BitVec.extractLsb'_append_eq_ite]; simp

@[simp] theorem arg1Field_wordOf (h l : Byte) : arg1Field (wordOf h l) = lowNibble h := by
  simp only [arg1Field, wordOf, lowNibble]
  rw [BitVec.extractLsb'_append_eq_ite]; simp

@[simp] theorem arg2Field_wordOf (h l : Byte) : arg2Field (wordOf h l) = highNibble l :=
  BitVec.extractLsb'_append_eq_of_add_le (by omega)

@[simp] theorem arg3Field_wordOf (h l : Byte) : arg3Field (wordOf h l) = lowNibble l :=
  BitVec.extractLsb'_append_eq_of_add_le (by omega)

/-- Three bytes are always an instruction. -/
theorem decode_three (b0 b1 b2 : Byte) : decode [b0, b1, b2] = .ok (decodeInsn (wordOf b0 b1) b2) := by
  have h : lengthOfOpcode (highNibble b0) ≤ 3 := by unfold lengthOfOpcode; split <;> omega
  simp [decode, show ¬3 < lengthOfOpcode (highNibble b0) by omega]

/-- A list long enough for its opcode is an instruction. -/
theorem decode_cons (b0 : Byte) (rest : List Byte) (h : lengthOfOpcode (highNibble b0) ≤ rest.length + 1) :
    decode (b0 :: rest) = .ok (decodeInsn (wordOf b0 (rest.getD 0 0)) (rest.getD 1 0)) := by
  simp [decode, show ¬rest.length + 1 < lengthOfOpcode (highNibble b0) by omega]

end Sys2Proof
end

