-- ==== Sys2Proof/Laws/Frames.lean ====
section
/-! SUPPORT. The frames of the shared ends of an instruction: retirement, a register result, a fault, a sent or received
word. -/

namespace Sys2Proof.Machine

theorem samePlatform_rfl {s t : State} (h1 : t.cfg = s.cfg) (h2 : t.boot = s.boot) (h3 : t.channels = s.channels) :
    SamePlatform s t := ⟨h1, h2, by rw [h3]⟩

/-- A retired instruction has advanced the instruction pointer by its width. -/
theorem advancedBy_retired (w : Nat) (s t : State) (h : t.ip = s.ip) : AdvancedBy w s (retired w t) := by
  intro hw
  rw [ip_retired, h, Nat.mod_eq_of_lt hw]

/-- A retired instruction that wrote register `a`. -/
theorem regWritten_retired (a : Reg) (v : Word) (w : Nat) (s t : State) (h : t.regs = s.regs) :
    RegWritten a v w s (retired w (t.setReg a v)) := by
  have hr : ∀ q, t.reg q = s.reg q := fun q => by simp [State.reg, h]
  refine ⟨fun r hne => ?_, fun ha => advancedBy_retired w s _ ?_⟩
  · rw [reg_retired_ne w _ hne, reg_setReg, hr]
  · rw [ip_setReg, if_neg ha]; exact hr ipReg

/-- The instruction pointer after an instruction whose destination it was. -/
theorem ip_retired_setReg (v : Word) (w : Nat) (s : State) :
    (retired w (s.setReg ipReg v)).ip.toNat = (v.toNat + w) % 65536 := by
  rw [ip_retired, ip_setReg, if_pos rfl]

/-- An instruction on registers leaves all else alone. -/
theorem onlyRegisters_retired (w : Nat) (s t : State) (h : t = { s with regs := t.regs }) :
    OnlyRegisters s (retired w t) := by
  rw [h]
  exact ⟨fun _ => rfl, samePlatform_rfl rfl rfl rfl, ⟨rfl, rfl⟩, ⟨rfl, rfl, rfl⟩, rfl, rfl, rfl⟩

/-- A fault taken leaves all alone but the instruction pointer, the report and the wait. -/
theorem faulted_spec (op : Option Nibble) (f : InstrFault) (w : Nat) (s : State) : Faulted op f w s (faulted op f w s) := by
  refine ⟨⟨fun r hr => reg_faulted_ne op f w s hr, fun hw => ?_⟩, fun _ => rfl, samePlatform_rfl rfl rfl rfl, ⟨rfl, rfl⟩,
    ⟨rfl, rfl, rfl⟩, ⟨_, rfl, rfl, rfl⟩, rfl, rfl⟩
  rw [ip_faulted, Nat.mod_eq_of_lt hw]

/-- A data register index below 16, as the low byte of a driver register, names that register. -/
theorem dataReg_byteOf (k : Reg) : dataReg (byteOf 0 k) = some k := by
  revert k; decide

/-- A data register index of 16 or more names none. -/
theorem dataReg_none (k : Byte) (h : 16 ≤ k.toNat) : dataReg k = none := by
  unfold dataReg; simp; omega

/-- What the low byte of a driver register can name. -/
theorem dataReg_cases (k : Byte) : (16 ≤ k.toNat ∧ dataReg k = none) ∨ (k.toNat < 16 ∧ ∃ r, dataReg k = some r) := by
  unfold dataReg
  by_cases h : k.toNat < 16
  · exact .inr ⟨h, BitVec.ofNat 4 k.toNat, if_pos h⟩
  · exact .inl ⟨by omega, by simp [h]⟩

/-- The words a channel accepts are where SentOn says. -/
theorem sentOn_sendWord (c : Byte) (v : Word) (s : State) (ch : Channel) (h : s.channel? c = some ch) :
    SentOn c ch v s (sendWord c v s) := by
  refine ⟨?_, fun c' hc' => ?_, rfl⟩
  · exact channel_updateChannel_self s c (Channel.accept v) ch (Channel.accept_params v) h
  · exact channel_updateChannel_ne s c c' (Channel.accept v) (Channel.accept_params v) hc'

/-- A received word is taken as ReceivedOn says. -/
theorem receivedOn_deliver (c : Byte) (s : State) (ch : Channel) (v : Word) (rest : List Word)
    (h : s.channel? c = some ch) (hin : ch.inbound = v :: rest) :
    ReceivedOn c ch rest s (s.updateChannel c Channel.deliver) := by
  refine ⟨?_, fun c' hc' => channel_updateChannel_ne s c c' _ Channel.deliver_params hc', rfl⟩
  rw [channel_updateChannel_self s c _ ch Channel.deliver_params h]
  simp [Channel.deliver, hin]

theorem canAccept_iff (ch : Channel) : ch.canAccept = true ↔ ch.Accepts := by
  simp [Channel.canAccept, Channel.Accepts]

theorem canAccept_eq_false (ch : Channel) : ch.canAccept = false ↔ ¬ch.Accepts := by
  rw [← canAccept_iff, Bool.not_eq_true]

/-- A channel that accepts a word keeps its bounds. -/
theorem Channel.accept_inv (v : Word) (ch : Channel) (hc : ch.Accepts) (h : ch.Inv) : (ch.accept v).Inv := by
  refine ⟨?_, h.2.1, fun hr => by simp [Channel.accept] at hr⟩
  simp only [Channel.accept, List.length_append, List.length_singleton]
  rcases hc with hc | ⟨-, hr⟩
  · omega
  · simp [(h.2.2 hr).1]

end Sys2Proof.Machine
end

