-- ==== Sys2Proof/Laws/Exec.lean ====
section
/-! SUPPORT. What each meaning answers on each of its paths, in terms of the shared ends of an instruction; and, for all of
them together, the five shapes an answer can have. -/

namespace Sys2Proof.Machine

variable (a b c : Reg) (s : State)

@[simp] theorem isByteForm_zero : isByteForm 0#4 = false := rfl

theorem isByteForm_of_ne {c : Nibble} (h : c ≠ 0) : isByteForm c = true := by
  simpa [isByteForm] using h

/-! ### LOAD, STORE, SET -/

theorem execLoad_word (h : (s.reg b).toNat + 1 < s.cfg.memSize) :
    execLoad a b 0 s =
      retire 2 (s.setReg a (wordOf (s.byteAt (s.reg b).toNat) (s.byteAt ((s.reg b).toNat + 1)))) := by
  unfold execLoad indirectBase; rw [load16_ok _ _ h]; rfl

theorem execLoad_word_fault (h : s.cfg.memSize ≤ (s.reg b).toNat + 1) :
    execLoad a b 0 s = takeFault (some 0) (.segfault (s.reg b) 0) 2 s := by
  unfold execLoad indirectBase; rw [load16_fault _ _ h]; rfl

theorem execLoad_byte {c : Nibble} (hc : c ≠ 0) (h : (s.reg b).toNat < s.cfg.memSize) :
    execLoad a b c s = retire 2 (s.setReg a (wordOf (highByte (s.reg a)) (s.byteAt (s.reg b).toNat))) := by
  unfold execLoad indirectBase; rw [isByteForm_of_ne hc, load8_ok _ _ h]; rfl

theorem execLoad_byte_fault {c : Nibble} (hc : c ≠ 0) (h : s.cfg.memSize ≤ (s.reg b).toNat) :
    execLoad a b c s = takeFault (some 0) (.segfault (s.reg b) 0) 2 s := by
  unfold execLoad indirectBase; rw [isByteForm_of_ne hc, load8_fault _ _ h]; rfl

theorem execStore_word (h : (s.reg b).toNat + 1 < s.cfg.memSize) :
    execStore a b 0 s =
      retire 2 ((s.setByte (s.reg b).toNat (highByte (s.reg a))).setByte ((s.reg b).toNat + 1) (lowByte (s.reg a))) := by
  unfold execStore indirectBase; rw [save16_ok _ _ _ h]; rfl

theorem execStore_word_fault (h : s.cfg.memSize ≤ (s.reg b).toNat + 1) :
    execStore a b 0 s = takeFault (some 1) (.segfault (s.reg b) 0) 2 s := by
  unfold execStore indirectBase; rw [save16_fault _ _ _ h]; rfl

theorem execStore_byte {c : Nibble} (hc : c ≠ 0) (h : (s.reg b).toNat < s.cfg.memSize) :
    execStore a b c s = retire 2 (s.setByte (s.reg b).toNat (lowByte (s.reg a))) := by
  unfold execStore indirectBase; rw [isByteForm_of_ne hc, save8_ok _ _ _ h]; rfl

theorem execStore_byte_fault {c : Nibble} (hc : c ≠ 0) (h : s.cfg.memSize ≤ (s.reg b).toNat) :
    execStore a b c s = takeFault (some 1) (.segfault (s.reg b) 0) 2 s := by
  unfold execStore indirectBase; rw [isByteForm_of_ne hc, save8_fault _ _ _ h]; rfl

theorem execSet_ok (imm : Word) (h : s.ip.toNat + 2 < s.cfg.memSize) :
    execSet a imm s = retire 3 (s.setReg a imm) := by
  unfold execSet loadImmediate; rw [load16_one_ok _ _ h]

theorem execSet_fault (imm : Word) (h : s.cfg.memSize ≤ s.ip.toNat + 2) :
    execSet a imm s = takeFault (some 2) (.segfault s.ip 1) 3 s := by
  unfold execSet loadImmediate; rw [load16_one_fault _ _ h]; rfl

/-! ### WBUS, SBUS, RBUS -/

theorem execWbus_eq (k : Reg) (h : dataReg (lowByte (s.reg a)) = some k) :
    execWbus a s = retire 1 ((whichAsked s).setReg k (whichWord (busWhich s))) := by
  simp only [execWbus, h]

theorem execSbus_eq (k : Reg) (h : dataReg (lowByte (s.reg a)) = some k) :
    execSbus a s =
      match busSend (highByte (s.reg a)) (s.reg k) s with
      | .unknown => takeFault (some 4) (.invalidBusAddress (highByte (s.reg a))) 1 s
      | .blocked => .next (suspend (.suspendedSend (highByte (s.reg a)) (s.reg k)) s)
      | .done t => retire 1 t := by
  simp only [execSbus, h]; rfl

theorem execRbus_eq (k : Reg) (h : dataReg (lowByte (s.reg a)) = some k) :
    execRbus a s =
      match busRecv (highByte (s.reg a)) s with
      | .unknown => takeFault (some 5) (.invalidBusAddress (highByte (s.reg a))) 1 s
      | .blocked => .next (suspend (.suspendedRecv (highByte (s.reg a)) k) s)
      | .done (v, t) => retire 1 (t.setReg k v) := by
  simp only [execRbus, h]; rfl

theorem busSend_blocked (c : Byte) (v : Word) (ch : Channel) (h : s.channel? c = some ch) (hc : ch.canAccept = false) :
    busSend c v s = .blocked := by
  simp [busSend, h, hc]

theorem busSend_done (c : Byte) (v : Word) (ch : Channel) (h : s.channel? c = some ch) (hc : ch.canAccept = true) :
    busSend c v s = .done (sendWord c v s) := by
  simp [busSend, h, hc]

theorem busSend_unknown (c : Byte) (v : Word) (h : s.channel? c = none) : busSend c v s = .unknown := by
  simp [busSend, h]

theorem busRecv_blocked (c : Byte) (ch : Channel) (h : s.channel? c = some ch) (hc : ch.inbound = []) :
    busRecv c s = .blocked := by
  simp [busRecv, h, hc]

theorem busRecv_done (c : Byte) (ch : Channel) (v : Word) (rest : List Word) (h : s.channel? c = some ch)
    (hc : ch.inbound = v :: rest) : busRecv c s = .done (v, s.updateChannel c Channel.deliver) := by
  simp [busRecv, h, hc]

theorem busRecv_unknown (c : Byte) (h : s.channel? c = none) : busRecv c s = .unknown := by
  simp [busRecv, h]

/-! ### All of them -/

/-- The shapes of a meaning's answer: a register written (and the free value's counter moved), a store, a fault taken, a word
sent, a word received, a suspension, or the stop on a bad data register. -/
inductive ExecShape (s : State) : Result → Prop
  | registers (t : State) (w : Nat) (h : t = { s with regs := t.regs, whichCount := t.whichCount }) : ExecShape s (retire w t)
  | storeByte (addr : Nat) (v : Byte) (h : addr < s.cfg.memSize) : ExecShape s (retire 2 (s.setByte addr v))
  | storeWord (addr : Nat) (v w : Byte) (h : addr + 1 < s.cfg.memSize) :
      ExecShape s (retire 2 ((s.setByte addr v).setByte (addr + 1) w))
  | fault (op : Option Nibble) (f : InstrFault) (w : Nat) : ExecShape s (takeFault op f w s)
  | sent (c : Byte) (v : Word) (ch : Channel) (h : s.channel? c = some ch) (hc : ch.canAccept = true) :
      ExecShape s (retire 1 (sendWord c v s))
  | received (c : Byte) (k : Reg) (ch : Channel) (v : Word) (rest : List Word) (h : s.channel? c = some ch)
      (hc : ch.inbound = v :: rest) : ExecShape s (retire 1 ((s.updateChannel c Channel.deliver).setReg k v))
  | heldSend (c : Byte) (v : Word) (ch : Channel) (h : s.channel? c = some ch) :
      ExecShape s (.next (suspend (.suspendedSend c v) s))
  | heldRecv (c : Byte) (k : Reg) (ch : Channel) (h : s.channel? c = some ch) :
      ExecShape s (.next (suspend (.suspendedRecv c k) s))
  | stop (k : Byte) (h : 16 ≤ k.toNat) : ExecShape s (.fault (.regIndexOutOfRange k))

theorem execLoad_shape (c : Nibble) : ExecShape s (execLoad a b c s) := by
  by_cases hc : c = 0
  · subst hc
    rcases Nat.lt_or_ge ((s.reg b).toNat + 1) s.cfg.memSize with h | h
    · rw [execLoad_word a b s h]; exact .registers _ 2 rfl
    · rw [execLoad_word_fault a b s h]; exact .fault ..
  · rcases Nat.lt_or_ge (s.reg b).toNat s.cfg.memSize with h | h
    · rw [execLoad_byte a b s hc h]; exact .registers _ 2 rfl
    · rw [execLoad_byte_fault a b s hc h]; exact .fault ..

theorem execStore_shape (c : Nibble) : ExecShape s (execStore a b c s) := by
  by_cases hc : c = 0
  · subst hc
    rcases Nat.lt_or_ge ((s.reg b).toNat + 1) s.cfg.memSize with h | h
    · rw [execStore_word a b s h]; exact .storeWord _ _ _ h
    · rw [execStore_word_fault a b s h]; exact .fault ..
  · rcases Nat.lt_or_ge (s.reg b).toNat s.cfg.memSize with h | h
    · rw [execStore_byte a b s hc h]; exact .storeByte _ _ h
    · rw [execStore_byte_fault a b s hc h]; exact .fault ..

theorem execSet_shape (imm : Word) : ExecShape s (execSet a imm s) := by
  rcases Nat.lt_or_ge (s.ip.toNat + 2) s.cfg.memSize with h | h
  · rw [execSet_ok a s imm h]; exact .registers _ 3 rfl
  · rw [execSet_fault a s imm h]; exact .fault ..

theorem execWbus_shape : ExecShape s (execWbus a s) := by
  rcases dataReg_cases (lowByte (s.reg a)) with ⟨h, hk⟩ | ⟨-, k, hk⟩
  · simp only [execWbus, hk]; exact .stop _ h
  · rw [execWbus_eq a s k hk]; exact .registers _ 1 rfl

theorem execSbus_shape : ExecShape s (execSbus a s) := by
  rcases dataReg_cases (lowByte (s.reg a)) with ⟨h, hk⟩ | ⟨-, k, hk⟩
  · simp only [execSbus, hk]; exact .stop _ h
  · rw [execSbus_eq a s k hk]
    rcases busSend_cases (highByte (s.reg a)) (s.reg k) s with ⟨-, g⟩ | ⟨ch, h, -, g⟩ | ⟨ch, h, hc, g⟩ <;> rw [g]
    · exact .fault ..
    · exact .heldSend _ _ ch h
    · exact .sent _ _ ch h hc

theorem execRbus_shape : ExecShape s (execRbus a s) := by
  rcases dataReg_cases (lowByte (s.reg a)) with ⟨h, hk⟩ | ⟨-, k, hk⟩
  · simp only [execRbus, hk]; exact .stop _ h
  · rw [execRbus_eq a s k hk]
    rcases busRecv_cases (highByte (s.reg a)) s with ⟨-, g⟩ | ⟨ch, h, -, g⟩ | ⟨ch, v, rest, h, hc, g⟩ <;> rw [g]
    · exact .fault ..
    · exact .heldRecv _ k ch h
    · exact .received _ k ch v rest h hc

theorem jumpIf_shape (taken : Bool) : ExecShape s (jumpIf taken c s) := by
  cases taken
  · exact .registers s 2 rfl
  · exact .registers _ 0 rfl

/-- Every instruction's answer has one of the shapes. -/
theorem exec_shape (i : Instr) : ExecShape s (exec i s) := by
  cases i with
  | load a b c => exact execLoad_shape a b s c
  | store a b c => exact execStore_shape a b s c
  | set a imm => exact execSet_shape a s imm
  | wbus a => exact execWbus_shape a s
  | sbus a => exact execSbus_shape a s
  | rbus a => exact execRbus_shape a s
  | ljump a b c => exact jumpIf_shape c s _
  | ejump a b c => exact jumpIf_shape c s _
  | add a b c => exact .registers _ 2 rfl
  | sub a b c => exact .registers _ 2 rfl
  | shl a b c => exact .registers _ 2 rfl
  | shr a b c => exact .registers _ 2 rfl
  | and a b c => exact .registers _ 2 rfl
  | or a b c => exact .registers _ 2 rfl
  | not a b c => exact .registers _ 2 rfl
  | xor a b c => exact .registers _ 2 rfl

end Sys2Proof.Machine
end

