-- ==== Sys2Proof/Laws/PerInstr.lean ====
section
/-! SUPPORT. The family OpcodeLeads, per constructor: the first byte of an encoding carries the opcode in its high nibble
(30_encoding.md R90, R95). -/

namespace Sys2Proof.Laws

open Machine

/-- The first byte of the instruction's encoding has the opcode as its high nibble. -/
def OpcodeLeads.Statement (i : Instr) : Prop := (encode i).head?.map highNibble = some i.opcode

/-- A byte's high nibble is the one it was made of. -/
theorem OpcodeLeads.leads (i : Instr) (lo : Nibble) (rest : List Byte) (h : encode i = byteOf i.opcode lo :: rest) :
    OpcodeLeads.Statement i := by
  simp [OpcodeLeads.Statement, h]

theorem OpcodeLeads.load (a b : Reg) (c : Nibble) : OpcodeLeads.Statement (.load a b c) := OpcodeLeads.leads _ _ _ rfl
theorem OpcodeLeads.store (a b : Reg) (c : Nibble) : OpcodeLeads.Statement (.store a b c) := OpcodeLeads.leads _ _ _ rfl
theorem OpcodeLeads.set (a : Reg) (imm : Word) : OpcodeLeads.Statement (.set a imm) := OpcodeLeads.leads _ _ _ rfl
theorem OpcodeLeads.wbus (a : Reg) : OpcodeLeads.Statement (.wbus a) := OpcodeLeads.leads _ _ _ rfl
theorem OpcodeLeads.sbus (a : Reg) : OpcodeLeads.Statement (.sbus a) := OpcodeLeads.leads _ _ _ rfl
theorem OpcodeLeads.rbus (a : Reg) : OpcodeLeads.Statement (.rbus a) := OpcodeLeads.leads _ _ _ rfl
theorem OpcodeLeads.ljump (a b c : Reg) : OpcodeLeads.Statement (.ljump a b c) := OpcodeLeads.leads _ _ _ rfl
theorem OpcodeLeads.ejump (a b c : Reg) : OpcodeLeads.Statement (.ejump a b c) := OpcodeLeads.leads _ _ _ rfl
theorem OpcodeLeads.add (a b c : Reg) : OpcodeLeads.Statement (.add a b c) := OpcodeLeads.leads _ _ _ rfl
theorem OpcodeLeads.sub (a b c : Reg) : OpcodeLeads.Statement (.sub a b c) := OpcodeLeads.leads _ _ _ rfl
theorem OpcodeLeads.shl (a b c : Reg) : OpcodeLeads.Statement (.shl a b c) := OpcodeLeads.leads _ _ _ rfl
theorem OpcodeLeads.shr (a b c : Reg) : OpcodeLeads.Statement (.shr a b c) := OpcodeLeads.leads _ _ _ rfl
theorem OpcodeLeads.and (a b c : Reg) : OpcodeLeads.Statement (.and a b c) := OpcodeLeads.leads _ _ _ rfl
theorem OpcodeLeads.or (a b c : Reg) : OpcodeLeads.Statement (.or a b c) := OpcodeLeads.leads _ _ _ rfl
theorem OpcodeLeads.not (a b : Reg) (c : Nibble) : OpcodeLeads.Statement (.not a b c) := OpcodeLeads.leads _ _ _ rfl
theorem OpcodeLeads.xor (a b c : Reg) : OpcodeLeads.Statement (.xor a b c) := OpcodeLeads.leads _ _ _ rfl

end Sys2Proof.Laws
end

