-- ==== Sys2Proof/Laws/Step.lean ====
section
/-! SUPPORT. What a step can do, by run state, said once. -/

namespace Sys2Proof.Machine

/-- A failed fetch (40_fetch_execute.md R125). -/
theorem fetchInstr_fault (s : State) (h : s.cfg.memSize ≤ s.ip.toNat + 1) :
    fetchInstr s = .error (.segfault s.ip 0) := by
  unfold fetchInstr fetchWord; rw [load16_fault _ _ h]

/-- A fetch in bounds decodes the word at the instruction pointer and the byte after it. -/
theorem fetchInstr_ok (s : State) (h : s.ip.toNat + 1 < s.cfg.memSize) :
    fetchInstr s =
      .ok (decodeInsn (wordOf (s.byteAt s.ip.toNat) (s.byteAt (s.ip.toNat + 1))) (thirdByte s)) := by
  unfold fetchInstr fetchWord; rw [load16_ok _ _ h]

/-- The third byte, where it is in memory. -/
theorem thirdByte_eq (s : State) (h : s.ip.toNat + 2 < s.cfg.memSize) : thirdByte s = s.byteAt (s.ip.toNat + 2) := by
  simp [thirdByte, State.memRead8, show ¬s.cfg.memSize ≤ s.ip.toNat + 2 by omega]

theorem step_running_fault (s : State) (hr : s.runState = .running) (h : s.cfg.memSize ≤ s.ip.toNat + 1) :
    step s = takeFault none (.segfault s.ip 0) 2 s := by
  simp only [step, hr, stepInstruction, fetchInstr_fault s h]; rfl

theorem step_running (s : State) (hr : s.runState = .running) (h : s.ip.toNat + 1 < s.cfg.memSize) :
    step s = exec (decodeInsn (wordOf (s.byteAt s.ip.toNat) (s.byteAt (s.ip.toNat + 1))) (thirdByte s)) s := by
  simp only [step, hr, stepInstruction, fetchInstr_ok s h]

/-- What a step can do: nothing (a final state), boot, an instruction, a failed fetch, the end of a suspended one, a move of
another agent, or the wait point's two ends. -/
inductive StepShape (s : State) : Result → Prop
  | final (h : s.runState = .bootFailed ∨ s.runState = .terminated) : StepShape s (.next s)
  | bootStart (env : List EnvMove) (h : s.runState = .reset) :
      StepShape s (.next { s with runState := .booting 0, env := env })
  | bootByte (n : Nat) (v : Byte) (h : s.runState = .booting n) (hv : s.boot.image[n]? = some v)
      (hb : n + s.boot.offset.toNat < s.cfg.memSize) :
      StepShape s (.next { s.setByte (n + s.boot.offset.toNat) v with runState := .booting (n + 1) })
  | bootFail (n : Nat) (h : s.runState = .booting n) : StepShape s (.next { s with runState := .bootFailed })
  | bootEnd (n : Nat) (h : s.runState = .booting n) (hn : s.boot.length ≤ n) :
      StepShape s (.next { s.setIp s.boot.start with runState := .running })
  | fetchFault (h : s.runState = .running) : StepShape s (takeFault none (.segfault s.ip 0) 2 s)
  | instruction (i : Instr) (r : Result) (h : s.runState = .running) (hb : s.ip.toNat + 1 < s.cfg.memSize)
      (hi : i = decodeInsn (wordOf (s.byteAt s.ip.toNat) (s.byteAt (s.ip.toNat + 1))) (thirdByte s))
      (hr : r = exec i s) : StepShape s r
  | sendEnds (c : Byte) (v : Word) (ch : Channel) (h : s.runState = .suspendedSend c v) (hc : s.channel? c = some ch)
      (ha : ch.canAccept = true) : StepShape s (retire 1 (sendWord c v s))
  | recvEnds (c : Byte) (k : Reg) (ch : Channel) (v : Word) (rest : List Word) (h : s.runState = .suspendedRecv c k)
      (hc : s.channel? c = some ch) (hv : ch.inbound = v :: rest) :
      StepShape s (retire 1 ((s.updateChannel c Channel.deliver).setReg k v))
  | held (h : (∃ c v, s.runState = .suspendedSend c v) ∨ ∃ c k, s.runState = .suspendedRecv c k) :
      StepShape s (.next (letEnvMove s))
  | moved (m : EnvMove) (rest : List EnvMove) (hm : s.env = m :: rest)
      (h : s.runState = .reset ∨ (∃ n, s.runState = .booting n) ∨ s.runState = .waiting) :
      StepShape s (.next (letEnvMove s))
  | passed (m : EnvMove) (rest : List EnvMove) (hm : s.env = m :: rest) (h : s.runState = .waiting)
      (hi : s.irqPending = true) (hl : s.irqPassed < Config.irqLatency) :
      StepShape s (.next (letEnvMove { s with irqPassed := s.irqPassed + 1 }))
  | ticked (env : List EnvMove) (n : Nat) (h : s.runState = .waiting)
      (hn : n = s.irqPassed ∨ (n = s.irqPassed + 1 ∧ s.irqPassed < Config.irqLatency)) :
      StepShape s (.next { s with runState := .running, env := env, irqPassed := n })
  | ended (h : s.runState = .waiting) (hi : s.irqPending = true) : StepShape s (.next { s with runState := .terminated })

theorem stepReset_shape (s : State) (h : s.runState = .reset) : StepShape s (stepReset s) := by
  unfold stepReset
  split
  · rename_i he; have := StepShape.bootStart s.env h; exact this
  · exact .bootStart _ h
  · rename_i m rest _ he
    have := StepShape.moved m rest he (.inl h)
    rwa [letEnvMove, he] at this

theorem bootTurn_shape (n : Nat) (s : State) (h : s.runState = .booting n) : StepShape s (bootTurn n s) := by
  unfold bootTurn bootLoad
  split
  · rename_i hn
    exact .bootEnd n h (by simpa [BootMedium.length] using hn)
  · rename_i v hv
    unfold State.memWrite8
    by_cases hb : n + s.boot.offset.toNat < s.cfg.memSize
    · rw [if_neg (by omega)]; exact .bootByte n v h hv hb
    · rw [if_pos (by omega)]; exact .bootFail n h

theorem stepBoot_shape (n : Nat) (s : State) (h : s.runState = .booting n) : StepShape s (stepBoot n s) := by
  unfold stepBoot
  split
  · exact bootTurn_shape n s h
  · rename_i m rest he
    split
    · have := StepShape.moved m rest he (.inr (.inl ⟨n, h⟩))
      rwa [letEnvMove, he] at this
    · exact bootTurn_shape n s h

theorem stepWait_shape (s : State) (h : s.runState = .waiting) : StepShape s (stepWait s) := by
  unfold stepWait waitMove
  split
  · rename_i hi
    split
    · exact .ended h hi
    · rename_i m rest he
      split
      · rename_i hl
        split
        · exact .ticked rest _ h (.inr ⟨rfl, hl⟩)
        · have := StepShape.passed m rest he h hi hl
          rwa [letEnvMove, show ({ s with irqPassed := s.irqPassed + 1 } : State).env = m :: rest from he] at this
      · exact .ended h hi
  · split
    · exact .ticked s.env s.irqPassed h (.inl rfl)
    · rename_i m rest he
      split
      · exact .ticked rest s.irqPassed h (.inl rfl)
      · have := StepShape.moved m rest he (.inr (.inr h))
        rwa [letEnvMove, he] at this

/-- Every step has one of the shapes. -/
theorem step_shape (s : State) : StepShape s (step s) := by
  cases h : s.runState with
  | reset => simp only [step, h]; exact stepReset_shape s h
  | booting n => simp only [step, h]; exact stepBoot_shape n s h
  | bootFailed => simp only [step, h]; exact .final (.inl h)
  | running =>
    rcases Nat.lt_or_ge (s.ip.toNat + 1) s.cfg.memSize with hb | hb
    · exact .instruction _ _ h hb rfl (step_running s h hb)
    · rw [step_running_fault s h hb]; exact .fetchFault h
  | suspendedSend c v =>
    simp only [step, h, stepSuspendedSend]
    rcases busSend_cases c v s with ⟨-, g⟩ | ⟨ch, -, -, g⟩ | ⟨ch, hc, ha, g⟩ <;> rw [g]
    · exact .held (.inl ⟨c, v, h⟩)
    · exact .held (.inl ⟨c, v, h⟩)
    · exact .sendEnds c v ch h hc ha
  | suspendedRecv c k =>
    simp only [step, h, stepSuspendedRecv]
    rcases busRecv_cases c s with ⟨-, g⟩ | ⟨ch, -, -, g⟩ | ⟨ch, v, rest, hc, hv, g⟩ <;> rw [g]
    · exact .held (.inr ⟨c, k, h⟩)
    · exact .held (.inr ⟨c, k, h⟩)
    · exact .recvEnds c k ch v rest h hc hv
  | waiting => simp only [step, h]; exact stepWait_shape s h
  | terminated => simp only [step, h]; exact .final (.inr h)

/-- What a move of the script can change, whoever makes it: the script, the interrupt, the FIFOs. -/
theorem letEnvMove_frame (s : State) :
    (letEnvMove s).regs = s.regs ∧ (letEnvMove s).mem = s.mem ∧ (letEnvMove s).cfg = s.cfg ∧
    (letEnvMove s).boot = s.boot ∧ (letEnvMove s).runState = s.runState ∧ (letEnvMove s).reports = s.reports ∧
    (letEnvMove s).sent = s.sent ∧ (letEnvMove s).whichCount = s.whichCount ∧ (letEnvMove s).irqPassed = s.irqPassed ∧
    (letEnvMove s).env = s.env.tail ∧
    (letEnvMove s).channels.map Channel.params = s.channels.map Channel.params := by
  unfold letEnvMove
  split
  · rename_i he; simp [he]
  · rename_i m rest he
    rcases envMove_cases m { s with env := rest } with g | g | ⟨c, f, hf, -, g⟩ <;> rw [g]
    · simp [he]
    · simp [he]
    · refine ⟨rfl, rfl, rfl, rfl, rfl, rfl, rfl, rfl, rfl, ?_, ?_⟩
      · simp [he]
      · exact params_updateChannel { s with env := rest } c f hf

end Sys2Proof.Machine
end

