-- ==== Sys2Proof/Tests/Slice0.lean ====
section
/-! SUPPORT. Tests on fixed values: the vectors of spec/95_test_vectors.md (named by their number there), words written out from
30_encoding.md, and for every statement with hypotheses a state that meets them. -/

namespace Sys2Proof.Tests

open Machine

/-! ### Helpers -/

/-- A running machine of `size` bytes with the instruction pointer at `ip`, these registers and these cells. -/
def tiny (size : Nat) (ip : Word) (regs : List (Reg × Word)) (cells : List (Nat × Byte)) : State :=
  let s : State := { State.reset with cfg := { memSize := size, tickPeriod := 200 }, runState := .running }
  (regs.foldl (fun t p => t.setReg p.1 p.2) (cells.foldl (fun t c => t.setByte c.1 c.2) s)).setIp ip

/-- The same machine with the bytes of an instruction at 0x100, where the instruction pointer is, and 16384 bytes of memory. -/
def at100 (bytes : List Byte) (regs : List (Reg × Word)) (cells : List (Nat × Byte)) : State :=
  storeBytes bytes 0x100 (tiny 16384 0x100 regs cells)

/-- The machine with channel `c` holding these words and its peripheral receiving or not. -/
def withChannel (c : Byte) (inbound outbound : List Word) (receiving : Bool) (s : State) : State :=
  s.updateChannel c (fun ch => { ch with inbound := inbound, outbound := outbound, receiving := receiving })

/-- The machine with channel 0 of capacity 0 as its only channel, its peripheral receiving or not. -/
def rendezvous (receiving : Bool) (s : State) : State :=
  { s with channels := [{ Channel.reset ⟨0, 0, 0⟩ with receiving := receiving }] }

/-- A next state of which `p` holds. -/
def gives (r : Result) (p : State → Bool) : Bool :=
  match r with
  | .next t => p t
  | .fault _ => false
  | .refused _ => false

/-- The memory of 95_test_vectors.md B3. -/
def memB3 : List (Nat × Byte) := [(0x10, 0xBE), (0x11, 0xEF), (0x12, 0x7F)]

/-! ### What WellFormed refuses -/

theorem test_memory_above_64k_refused : Config.wellFormed { memSize := 65537, tickPeriod := 200 } = false := by decide
theorem test_memory_of_64k_admitted : Config.wellFormed { memSize := 65536, tickPeriod := 200 } = true := by decide
theorem test_channel_twice_refused : channelsWellFormed [⟨1, 0, 0⟩, ⟨1, 2, 2⟩] = false := by decide
theorem test_channels_out_of_order_refused : channelsWellFormed [⟨0, 0, 0⟩, ⟨2, 0, 0⟩, ⟨1, 0, 0⟩] = false := by decide
theorem test_reference_channels_admitted : channelsWellFormed Config.referenceChannels = true := by decide
theorem test_load_flag_2_not_canonical : (Instr.load 1 2 2).canonical = false := by decide
theorem test_store_flag_2_not_canonical : (Instr.store 1 2 2).canonical = false := by decide
theorem test_not_flag_1_not_canonical : (Instr.not 1 2 1).canonical = false := by decide

/-! ### Decoding: words written out from 30_encoding.md -/

theorem test_decode_load : decode [0x01, 0x21] = .ok (.load 1 2 1) := by decide
theorem test_decode_store : decode [0x14, 0x00] = .ok (.store 4 0 0) := by decide
theorem test_decode_set : decode [0x2B, 0x00, 0x01] = .ok (.set 11 1) := by decide
theorem test_decode_wbus : decode [0x35] = .ok (.wbus 5) := by decide
theorem test_decode_sbus : decode [0x45] = .ok (.sbus 5) := by decide
theorem test_decode_rbus : decode [0x56] = .ok (.rbus 6) := by decide
theorem test_decode_ljump : decode [0x60, 0x1C] = .ok (.ljump 0 1 12) := by decide
theorem test_decode_ejump : decode [0x71, 0x23] = .ok (.ejump 1 2 3) := by decide
theorem test_decode_add : decode [0x82, 0x21] = .ok (.add 2 2 1) := by decide
theorem test_decode_sub : decode [0x90, 0x0B] = .ok (.sub 0 0 11) := by decide
theorem test_decode_shl : decode [0xA3, 0x12] = .ok (.shl 3 1 2) := by decide
theorem test_decode_shr : decode [0xB3, 0x12] = .ok (.shr 3 1 2) := by decide
theorem test_decode_and : decode [0xC3, 0x12] = .ok (.and 3 1 2) := by decide
theorem test_decode_or : decode [0xD3, 0x12] = .ok (.or 3 1 2) := by decide
theorem test_decode_not : decode [0xE1, 0x2F] = .ok (.not 1 2 15) := by decide
theorem test_decode_xor : decode [0xF3, 0x12] = .ok (.xor 3 1 2) := by decide
theorem test_decode_nothing : decode [] = .error .noBytes := by decide
theorem test_decode_truncated : decode [0x24, 0xBE] = .error (.truncated 2 3 2) := by decide

/-- B2.8: the table numbers the bits of the instruction word, its high byte at the lower address. -/
theorem test_table_word_two_bytes : decodeTableWord 16 0x7123 = some (.ejump 1 2 3) := by decide
theorem test_table_word_one_byte : decodeTableWord 8 0x45 = some (.sbus 5) := by decide
theorem test_table_word_three_bytes : decodeTableWord 24 0xEF24BE = some (.set 4 0xBEEF) := by decide

/-! ### One step of each instruction, from 95_test_vectors.md B3 to B6 -/

theorem test_load_word_B3_1 :
    gives (step (at100 [0x01, 0x20] [(1, 0x1234), (2, 0x10)] memB3)) (fun t => t.reg 1 == 0xBEEF && t.ip == 0x102) = true := by
  decide
theorem test_load_byte_B3_2 :
    gives (step (at100 [0x01, 0x21] [(1, 0x1234), (2, 0x10)] memB3)) (fun t => t.reg 1 == 0x12BE && t.ip == 0x102) = true := by
  decide
theorem test_store_word_B3_10 :
    gives (step (at100 [0x14, 0x00] [(4, 0xBEEF), (0, 0x20)] [])) (fun t => t.byteAt 0x20 == 0xBE && t.byteAt 0x21 == 0xEF) =
      true := by decide
theorem test_store_fault_B3_13 :
    gives (step (at100 [0x14, 0x00] [(4, 0xBEEF), (0, 0x3FFF)] [])) (fun t =>
      t.reports == [{ fault := .segfault 0x3FFF 0, opcode := some 1, ip := 0x100 }] && t.byteAt 0x3FFF == 0 &&
        t.ip == 0x102) = true := by decide
theorem test_set_B3_15 :
    gives (step (at100 [0x24, 0xBE, 0xEF] [] [])) (fun t => t.reg 4 == 0xBEEF && t.ip == 0x103) = true := by decide
theorem test_set_fault_B3_17 :
    gives (step (tiny 16 14 [(1, 0x5555)] [(14, 0x21), (15, 0xAA)])) (fun t =>
      t.reports == [{ fault := .segfault 14 1, opcode := some 2, ip := 14 }] && t.reg 1 == 0x5555 && t.ip == 17) = true := by
  decide
theorem test_wbus_empty_B4_1 :
    gives (step (at100 [0x35] [(5, 0xAB07)] [])) (fun t => t.reg 7 == 0x0100 && t.ip == 0x101) = true := by decide
theorem test_wbus_ready_B4_2 :
    gives (step (withChannel 1 [0x41] [] false (at100 [0x35] [(5, 0x0007)] []))) (fun t =>
      t.reg 7 == 0x0001 && (t.channel? 1).map Channel.inbound == some [0x41]) = true := by decide
theorem test_sbus_B4_8 :
    gives (step (at100 [0x45] [(5, 0x0105)] [])) (fun t =>
      (t.channel? 1).map Channel.outbound == some [0x0105] && t.ip == 0x101) = true := by decide
theorem test_sbus_fault_B4_10 :
    gives (step (at100 [0x45] [(5, 0x0702)] [])) (fun t =>
      t.reports == [{ fault := .invalidBusAddress 7, opcode := some 4, ip := 0x100 }] && t.ip == 0x101) = true := by decide
theorem test_rbus_B4_12 :
    gives (step (withChannel 1 [0x41, 0x42] [] false (at100 [0x56] [(6, 0x0103)] []))) (fun t =>
      t.reg 3 == 0x41 && (t.channel? 1).map Channel.inbound == some [0x42] && t.ip == 0x101) = true := by decide
theorem test_rbus_suspends_B4_15 :
    gives (step (at100 [0x56] [(6, 0x0103)] [])) (fun t => t.runState == .suspendedRecv 1 3 && t.ip == 0x100) = true := by
  decide
theorem test_ljump_unsigned_B5_3 :
    gives (step (at100 [0x61, 0x23] [(1, 0x8000), (2, 1), (3, 0xA0)] [])) (fun t => t.ip == 0x102) = true := by decide
theorem test_ljump_taken_B5_4 :
    gives (step (at100 [0x61, 0x23] [(1, 1), (2, 0x8000), (3, 0xA0)] [])) (fun t => t.ip == 0xA0) = true := by decide
theorem test_ejump_taken_B5_10 :
    gives (step (at100 [0x71, 0x23] [(1, 0x1234), (2, 0x1234), (3, 0xA0)] [])) (fun t => t.ip == 0xA0) = true := by decide
theorem test_ejump_not_taken_B5_12 :
    gives (step (at100 [0x71, 0x23] [(1, 0x1234), (2, 0x0034), (3, 0xA0)] [])) (fun t => t.ip == 0x102) = true := by decide
theorem test_add_B6_2 :
    gives (step (at100 [0x83, 0x12] [(1, 0xFFFF), (2, 1)] [])) (fun t => t.reg 3 == 0 && t.ip == 0x102) = true := by decide
theorem test_add_destination_is_source_B6_27 :
    gives (step (at100 [0x81, 0x11] [(1, 0x4000)] [])) (fun t => t.reg 1 == 0x8000) = true := by decide
theorem test_sub_B6_7 :
    gives (step (at100 [0x93, 0x12] [(1, 3), (2, 5)] [])) (fun t => t.reg 3 == 0xFFFE) = true := by decide
theorem test_shl_B6_9 :
    gives (step (at100 [0xA3, 0x12] [(1, 0xFF), (2, 4)] [])) (fun t => t.reg 3 == 0x0FF0) = true := by decide
theorem test_shl_not_masked_B6_14 :
    gives (step (at100 [0xA3, 0x12] [(1, 0xFFFF), (2, 0x11)] [])) (fun t => t.reg 3 == 0) = true := by decide
theorem test_shr_B6_17 :
    gives (step (at100 [0xB3, 0x12] [(1, 0x8000), (2, 1)] [])) (fun t => t.reg 3 == 0x4000) = true := by decide
theorem test_shr_not_masked_B6_20 :
    gives (step (at100 [0xB3, 0x12] [(1, 0xFFFF), (2, 0x100)] [])) (fun t => t.reg 3 == 0) = true := by decide
theorem test_and_B6_21 :
    gives (step (at100 [0xC3, 0x12] [(1, 0x0FF0), (2, 0x3C3C)] [])) (fun t => t.reg 3 == 0x0C30) = true := by decide
theorem test_or_B6_22 :
    gives (step (at100 [0xD3, 0x12] [(1, 0x0FF0), (2, 0x3C3C)] [])) (fun t => t.reg 3 == 0x3FFC) = true := by decide
theorem test_xor_B6_23 :
    gives (step (at100 [0xF3, 0x12] [(1, 0x0FF0), (2, 0x3C3C)] [])) (fun t => t.reg 3 == 0x33CC) = true := by decide
theorem test_not_B6_25 :
    gives (step (at100 [0xE3, 0x1F] [(1, 0x00FF)] [])) (fun t => t.reg 3 == 0xFF00) = true := by decide

/-! ### Around the instructions -/

theorem test_fetch_fault_wraps_B2_4 :
    gives (step (tiny 16384 0xFFFF [] [])) (fun t =>
      t.ip == 1 && t.reports == [{ fault := .segfault 0xFFFF 0, opcode := none, ip := 0xFFFF }]) = true := by decide
theorem test_ip_as_destination_B2_6 :
    gives (step (at100 [0x8F, 0xF1] [(1, 2)] [])) (fun t => t.ip == 0x104) = true := by decide
theorem test_boot_failure_B7_6 :
    gives (step { State.reset with boot := ⟨0x4000, 0, [0]⟩, runState := .booting 0 }) (fun t => t.runState == .bootFailed) =
      true := by decide
/-- 42_bus.md R160: with a buffer a word is appended whether or not the peripheral waits for one. -/
theorem test_word_appended_though_awaited : ((Channel.reset ⟨1, 2, 2⟩).take.accept 7).outbound = [7] := by decide
/-- 42_bus.md R160: with capacity 0 a word is accepted when, and only when, the peripheral is receiving. -/
theorem test_capacity_0_accepts_when_received :
    (Channel.reset ⟨0, 0, 0⟩).canAccept = false ∧ (Channel.reset ⟨0, 0, 0⟩).take.canAccept = true := by decide
theorem test_reset_memory_canonical : Memory.wf State.reset.mem = true := by decide
theorem test_fetch_word_at_reset :
    gives (step (State.reset.withFetchWord 24 0xEF24BE)) (fun t => t.reg 4 == 0xBEEF) = true := by decide

/-! ### For each statement with hypotheses, what meets them -/

/-- The channel `c` of the state `s`, for a witness. -/
def chan (s : State) (c : Byte) : Channel :=
  match s.channel? c with
  | some ch => ch
  | none => Channel.reset ⟨c, 0, 0⟩

theorem witness_DecodeInvertsEncode : (Instr.set 4 0xBEEF).wellFormed = true := by decide

theorem witness_ByteAccess :
    Memory.wf (tiny 16 0 [] memB3).mem = true ∧ (15 : Word).toNat + (1 : Word).toNat ≥ (tiny 16 0 [] memB3).cfg.memSize ∧
      (15 : Word).toNat + (0 : Word).toNat < (tiny 16 0 [] memB3).cfg.memSize := by decide

theorem witness_WordAccess :
    Memory.wf (tiny 16 0 [] memB3).mem = true ∧ (15 : Word).toNat + (0 : Word).toNat + 1 ≥ (tiny 16 0 [] memB3).cfg.memSize ∧
      (14 : Word).toNat + (0 : Word).toNat + 1 < (tiny 16 0 [] memB3).cfg.memSize := by decide

theorem witness_AddressesNeverWrap :
    (tiny 65536 0 [] []).cfg.wellFormed = true ∧ (0xFFFF : Word).toNat + (1 : Word).toNat ≥ 0x10000 ∧
      (0xFFFF : Word).toNat + (0 : Word).toNat ≥ 0xFFFF := by decide

/-- The last address an instruction can be fetched from. -/
theorem witness_StepRunsTheDecodedInstruction :
    let s := tiny 16 14 [] [(14, 0x82), (15, 0x21)]
    s.runState = .running ∧ s.ip.toNat + 1 < s.cfg.memSize ∧
      decode [s.byteAt s.ip.toNat, s.byteAt (s.ip.toNat + 1), s.byteAt (s.ip.toNat + 2)] = .ok (.add 2 2 1) ∧
      (Instr.add 2 2 1).wellFormed = true := by decide

theorem witness_FailedFetchIsReportedAndSkipped :
    (tiny 16 15 [] []).runState = .running ∧ (tiny 16 15 [] []).ip.toNat + 1 ≥ (tiny 16 15 [] []).cfg.memSize := by decide

/-- A state as the statement's right side describes it, with the index 16. -/
theorem witness_OnlyABadDataRegisterStopsTheMachine :
    let s := at100 [0x45] [(5, 0x0010)] []
    s.runState = .running ∧ s.ip.toNat + 1 < s.cfg.memSize ∧
      3 ≤ (highNibble (s.byteAt s.ip.toNat)).toNat ∧ (highNibble (s.byteAt s.ip.toNat)).toNat ≤ 5 ∧
      16 ≤ (lowByte (s.reg (lowNibble (s.byteAt s.ip.toNat)))).toNat := by decide

theorem witness_EveryStepKeepsTheInvariant :
    (at100 [0x45] [(5, 0x0105)] memB3).Inv ∧ gives (step (at100 [0x45] [(5, 0x0105)] memB3)) (fun _ => true) = true :=
  ⟨⟨by decide, by decide, by decide, by decide, by decide, by decide, Nat.zero_le _⟩, by decide⟩

theorem witness_ResetMeetsTheInvariant :
    Config.wellFormed { memSize := 65536, tickPeriod := 1 } = true ∧ channelsWellFormed [⟨7, 0, 0⟩, ⟨9, 2, 0⟩] = true := by decide

/-- Also the witness of PlatformIsFixed: a step that answers a next state. -/
theorem witness_RunStateTransitions : gives (step (at100 [0x45] [(5, 0x0105)] [])) (fun t => t.runState == .waiting) = true := by
  decide

theorem witness_FinalStatesStay :
    ({ State.reset with runState := .terminated } : State).runState = .terminated ∧
      ({ State.reset with runState := .bootFailed } : State).runState = .bootFailed := by decide

/-- A core at the wait point with this script. -/
def waiting (irq : Bool) (env : List EnvMove) : State := { State.reset with runState := .waiting, irqPending := irq, env := env }

theorem witness_OnlyThePendingInterruptEndsTheRun :
    gives (step (waiting true [])) (fun t => t.runState == .terminated) = true ∧ (waiting true []).runState ≠ .terminated := by
  decide

theorem witness_TickOrInterruptAtTheWaitPoint :
    (waiting false []).runState = .waiting ∧ (waiting false []).irqPending = false ∧ (waiting false []).env = [] ∧
      (waiting false [.tick, .closeSink]).irqPending = false ∧ (waiting false [.tick, .closeSink]).env = .tick :: [.closeSink] ∧
      (waiting false [.offer 1 7]).irqPending = false ∧ (waiting false [.offer 1 7]).env = .offer 1 7 :: [] ∧
      EnvMove.offer 1 7 ≠ .tick ∧ (waiting true []).irqPending = true ∧ (waiting true []).env = [] := by decide

/-- At the bound of the free value, with a tick and with another move. -/
theorem witness_PendingInterruptIsTakenInTheEnd :
    let s : State := { waiting true [.tick] with irqPassed := Config.irqLatency }
    let t : State := waiting true [.offer 1 7, .tick]
    s.runState = .waiting ∧ s.irqPending = true ∧ s.env = .tick :: [] ∧ Config.irqLatency ≤ s.irqPassed ∧
      t.runState = .waiting ∧ t.irqPending = true ∧ t.env = .offer 1 7 :: [.tick] ∧ EnvMove.offer 1 7 ≠ .tick :=
  ⟨rfl, rfl, rfl, Nat.le_refl _, rfl, rfl, rfl, by decide⟩

theorem witness_WithoutATickThePendingInterruptEndsTheRun :
    let s := waiting true [.offer 1 7, .take 0]
    s.runState = .waiting ∧ s.irqPending = true ∧ ∀ m ∈ s.env, m ≠ .tick := by decide

/-- Before boot: no move left, the start, another move; during the copy: no move left and one left, with a byte that fits, one
that does not, and none. -/
theorem witness_OthersMoveBeforeAndDuringBoot :
    let s : State := State.reset
    let t : State := { s with env := [.startBoot] }
    let u : State := { s with env := [.closeSink] }
    let v : State := { u with runState := .booting 0, boot := ⟨0x3FFF, 0, [7, 8]⟩ }
    s.runState = .reset ∧ s.env = [] ∧ t.runState = .reset ∧ t.env = .startBoot :: [] ∧ u.runState = .reset ∧
      u.env = .closeSink :: [] ∧ EnvMove.closeSink ≠ .startBoot ∧ v.runState = .booting 0 ∧ v.env = .closeSink :: [] ∧
      v.boot.image[0]? = some 7 ∧ v.boot.offset.toNat + 0 < v.cfg.memSize ∧ v.boot.image[1]? = some 8 ∧
      v.boot.offset.toNat + 1 ≥ v.cfg.memSize ∧ v.boot.image[2]? = none := by decide

theorem witness_InterruptIsLatched :
    (waiting true []).irqPending = true ∧ gives (step (waiting true [])) (fun t => t.irqPending) = true ∧
      (waiting false [.interrupt ⟨0, 0⟩]).irqPending = false ∧
      gives (step (waiting false [.interrupt ⟨0, 0⟩])) (fun t => t.irqPending) = true ∧
      gives (step (waiting false [.closeSink])) (fun t => t.irqPending) = true := by decide

theorem witness_OthersNeverTouchRegistersOrMemory :
    gives (step (waiting false [.offer 1 7])) (fun _ => true) = true ∧
      gives (step { State.reset with env := [.take 1] }) (fun _ => true) = true := by decide

theorem witness_PlatformIsFixed : gives (step (waiting false [.offer 1 7])) (fun _ => true) = true := by decide

theorem witness_ReportsComeOneByOneInOrder :
    gives (step (at100 [0x45] [(5, 0x0105)] [])) (fun t => t.reports == []) = true ∧
      gives (step (at100 [0x45] [(5, 0x0702)] [])) (fun t => t.reports.length == 1) = true := by decide

theorem witness_WordsAreSentOneByOneInOrder :
    gives (step (at100 [0x45] [(5, 0x0702)] [])) (fun t => t.sent == []) = true ∧
      gives (step (at100 [0x45] [(5, 0x0105)] [])) (fun t => t.sent == [(1, 0x0105)]) = true ∧
      gives (step { State.reset with runState := .suspendedSend 1 7 }) (fun t => t.sent == [(1, 7)]) = true := by decide

theorem witness_ChannelsAreFifos :
    gives (step (at100 [0x45] [(5, 0x0105)] [])) (fun _ => true) = true ∧
      (at100 [0x45] [(5, 0x0105)] []).channel? 1 = some (chan (at100 [0x45] [(5, 0x0105)] []) 1) := by decide

/-- A channel whose peripheral can still hold a word out, one whose peripheral cannot, one with an outbound word, one
without. -/
theorem witness_PeripheralMoves :
    let s := withChannel 0 [1, 2] [5] false (withChannel 1 [1, 2, 3] [] false State.reset)
    s.channel? 0 = some (chan s 0) ∧ (chan s 0).inbound.length ≤ (chan s 0).params.inCap ∧ (chan s 0).outbound = 5 :: [] ∧
      s.channel? 1 = some (chan s 1) ∧ ¬(chan s 1).inbound.length ≤ (chan s 1).params.inCap ∧ (chan s 1).outbound = [] := by
  decide

/-- Two states that differ in all an instruction cannot see, one instruction that completes and one that stops. -/
theorem witness_InstructionsCannotSeeTheOutside :
    let s := at100 [] [(5, 0x0010)] []
    let t : State := { s with irqPending := true, env := [.tick], boot := ⟨1, 2, [3]⟩, irqPassed := 4 }
    SameVisible s t ∧ exec (.wbus 5) s = .fault (.regIndexOutOfRange 0x10) ∧ gives (exec (.add 1 2 3) s) (fun _ => true) = true :=
  ⟨⟨rfl, rfl, rfl, rfl, rfl⟩, rfl, by decide⟩

/-- The reset state with a boot medium, in a memory of 16 bytes (B7.2, B7.3). -/
def toBoot (b : BootMedium) : State := State.resetWith { memSize := 16, tickPeriod := 200 } Config.referenceChannels b

/-- An empty image, and one whose last byte is the last of memory, with a script that raises an interrupt during the copy. -/
theorem witness_BootCopiesTheImage :
    let s := toBoot ⟨0x20, 0, []⟩
    let t : State := { toBoot ⟨14, 14, [0x70, 0x0F]⟩ with env := [.offer 1 7, .startBoot, .closeSink], irqPending := true }
    s.Inv ∧ s.runState = .reset ∧ s.boot.length = 0 ∧ s.env = [] ∧
      t.Inv ∧ t.runState = .reset ∧ t.boot.offset.toNat + t.boot.length ≤ t.cfg.memSize ∧ t.env ≠ [] ∧ t.irqPending = true :=
  ⟨⟨by decide, by decide, by decide, by decide, by decide, by decide, Nat.zero_le _⟩, by decide, by decide, by decide,
    ⟨by decide, by decide, by decide, by decide, by decide, by decide, Nat.zero_le _⟩, by decide, by decide, by decide, by decide⟩

/-- One byte too many, without a script and with one. -/
theorem witness_BootFailsWhenTheImageDoesNotFit :
    let s := toBoot ⟨14, 14, [0x70, 0x0F, 0]⟩
    let t : State := { s with env := [.offer 1 7, .startBoot, .closeSink] }
    s.Inv ∧ s.runState = .reset ∧ s.env = [] ∧ 1 ≤ s.boot.length ∧ s.boot.offset.toNat + s.boot.length > s.cfg.memSize ∧
      t.Inv ∧ t.runState = .reset ∧ t.env ≠ [] ∧ 1 ≤ t.boot.length ∧ t.boot.offset.toNat + t.boot.length > t.cfg.memSize :=
  ⟨⟨by decide, by decide, by decide, by decide, by decide, by decide, Nat.zero_le _⟩, by decide, by decide, by decide, by decide,
    ⟨by decide, by decide, by decide, by decide, by decide, by decide, Nat.zero_le _⟩, by decide, by decide, by decide, by decide⟩

/-- Registers 0 to 2 hold the last word address, the last byte address, and the first address beyond, of 16 bytes. -/
def edges : State := tiny 16 4 [(0, 14), (1, 15), (2, 16)] []

theorem witness_LoadResult :
    (edges.reg 0).toNat + 1 < edges.cfg.memSize ∧ (1 : Nibble) ≠ 0 ∧ (edges.reg 1).toNat < edges.cfg.memSize := by decide

theorem witness_LoadOutOfBoundsFaults :
    (edges.reg 1).toNat + 1 ≥ edges.cfg.memSize ∧ (1 : Nibble) ≠ 0 ∧ (edges.reg 2).toNat ≥ edges.cfg.memSize := by decide

theorem witness_StoreResult :
    Memory.wf edges.mem = true ∧ effectiveAddress (indirectBase 0 edges) 0 + 1 < edges.cfg.memSize ∧
      effectiveAddress (indirectBase 1 edges) 0 < edges.cfg.memSize ∧
      effectiveAddress (indirectBase 1 edges) 0 + 1 ≥ edges.cfg.memSize ∧
      effectiveAddress (indirectBase 2 edges) 0 ≥ edges.cfg.memSize := by decide

theorem witness_SetResult : (tiny 16 13 [] []).ip.toNat + 2 < (tiny 16 13 [] []).cfg.memSize := by decide

theorem witness_SetLoadsTheBytesAfterItsOpcode :
    let s := tiny 16 13 [] [(13, 0x24)]
    s.runState = .running ∧ s.ip.toNat + 2 < s.cfg.memSize ∧ (highNibble (s.byteAt s.ip.toNat)).toNat = 2 := by decide

theorem witness_SetOutOfBoundsFaults : (tiny 16 14 [] []).ip.toNat + 2 ≥ (tiny 16 14 [] []).cfg.memSize := by decide

/-- The data registers 0 and 15, without and with a channel that is ready. -/
theorem witness_WbusResult :
    let s := tiny 16 0 [(5, 0xAB00), (6, 0xAB0F)] []
    let t := withChannel 0 [9] [] false (withChannel 2 [8] [] false s)
    lowByte (s.reg 5) = byteOf 0 0 ∧ lowByte (t.reg 6) = byteOf 0 15 ∧ (∀ ch ∈ s.channels, ch.inbound = []) ∧
      ∃ ch ∈ t.channels, ch.inbound ≠ [] := by decide

/-- A buffer with one place left, and a channel of capacity 0 whose peripheral is receiving. -/
theorem witness_SbusSendsTheDataRegister :
    let s := withChannel 1 [] [1] false (tiny 16 0 [(6, 0x010F)] [])
    let t := rendezvous true (tiny 16 0 [(5, 0x0002)] [])
    lowByte (s.reg 6) = byteOf 0 15 ∧ s.channel? (highByte (s.reg 6)) = some (chan s 1) ∧ (chan s 1).Accepts ∧
      lowByte (t.reg 5) = byteOf 0 2 ∧ t.channel? (highByte (t.reg 5)) = some (chan t 0) ∧ (chan t 0).Accepts := by decide

theorem witness_RbusReceivesIntoTheDataRegister :
    let s := withChannel 1 [0x41] [] false (tiny 16 0 [(6, 0x0103)] [])
    lowByte (s.reg 6) = byteOf 0 3 ∧ s.channel? (highByte (s.reg 6)) = some (chan s 1) ∧ (chan s 1).inbound = 0x41 :: [] := by
  decide

theorem witness_UnknownChannelFaults :
    let s := tiny 16 0 [(6, 0x0303)] []
    lowByte (s.reg 6) = byteOf 0 3 ∧ s.channel? (highByte (s.reg 6)) = none := by decide

/-- A full buffer, and a channel of capacity 0 whose peripheral is not receiving; both without inbound data. -/
theorem witness_BlockedBusInstructionSuspends :
    let s := withChannel 1 [] [1, 2] false (tiny 16 0 [(6, 0x0103)] [])
    let t := rendezvous false (tiny 16 0 [(6, 0x0003)] [])
    lowByte (s.reg 6) = byteOf 0 3 ∧ s.channel? (highByte (s.reg 6)) = some (chan s 1) ∧ ¬(chan s 1).Accepts ∧
      (chan s 1).inbound = [] ∧ lowByte (t.reg 6) = byteOf 0 3 ∧ t.channel? (highByte (t.reg 6)) = some (chan t 0) ∧
      ¬(chan t 0).Accepts := by decide

theorem witness_BadDataRegisterStops : 16 ≤ (lowByte ((tiny 16 0 [(6, 0x0010)] []).reg 6)).toNat := by decide

theorem witness_SuspendedBusInstructionCompletes :
    let s := withChannel 1 [0x41] [1] false { State.reset with runState := .suspendedSend 1 7 }
    let t := { s with runState := .suspendedRecv 1 3 }
    let u := rendezvous true { State.reset with runState := .suspendedSend 0 7 }
    s.channel? 1 = some (chan s 1) ∧ s.runState = .suspendedSend 1 7 ∧ (chan s 1).Accepts ∧
      t.channel? 1 = some (chan t 1) ∧ t.runState = .suspendedRecv 1 3 ∧ (chan t 1).inbound = 0x41 :: [] ∧
      u.runState = .suspendedSend 0 7 ∧ u.channel? 0 = some (chan u 0) ∧ (chan u 0).Accepts := by decide

theorem witness_SuspendedCoreIsHeld :
    let s := withChannel 1 [] [1, 2] false { State.reset with runState := .suspendedSend 1 7 }
    let t : State := { s with runState := .suspendedRecv 1 3, env := [.closeSink], irqPending := true }
    s.channel? 1 = some (chan s 1) ∧ s.runState = .suspendedSend 1 7 ∧ ¬(chan s 1).Accepts ∧ s.env = [] ∧
      t.channel? 1 = some (chan t 1) ∧ t.runState = .suspendedRecv 1 3 ∧ (chan t 1).inbound = [] ∧
      t.env = .closeSink :: [] := by decide

/-- An offer to a suspended RBUS, room made in a full buffer, and a receive on a channel of capacity 0. -/
theorem witness_ThePeripheralLiftsTheHold :
    let s : State := withChannel 1 [] [1, 2] false { State.reset with runState := .suspendedRecv 1 3, env := [.offer 1 7] }
    let t : State := { s with runState := .suspendedSend 1 7, env := [.take 1] }
    let u : State := rendezvous false { State.reset with runState := .suspendedSend 0 7, env := [.take 0] }
    s.channel? 1 = some (chan s 1) ∧ s.runState = .suspendedRecv 1 3 ∧ (chan s 1).inbound = [] ∧ s.env = .offer 1 7 :: [] ∧
      t.channel? 1 = some (chan t 1) ∧ t.runState = .suspendedSend 1 7 ∧ ¬(chan t 1).Accepts ∧
      (chan t 1).outbound = 1 :: [2] ∧ ([2] : List Word).length < (chan t 1).params.outCap ∧ t.env = .take 1 :: [] ∧
      u.channel? 0 = some (chan u 0) ∧ u.runState = .suspendedSend 0 7 ∧ ¬(chan u 0).Accepts ∧ (chan u 0).outbound = [] ∧
      (chan u 0).params.outCap = 0 ∧ u.env = .take 0 :: [] := by decide

/-- Either side of the comparison, and its boundary. -/
theorem witness_LjumpResult :
    (edges.reg 0).toNat < (edges.reg 1).toNat ∧ ¬(edges.reg 1).toNat < (edges.reg 1).toNat := by decide

theorem witness_EjumpResult :
    (edges.reg 0).toNat = (edges.reg 0).toNat ∧ (edges.reg 0).toNat ≠ (edges.reg 1).toNat := by decide

/-- The last addresses of 64 KiB: an ADD that ends, a SET whose third byte is missing, a suspended SBUS and RBUS that end. -/
theorem witness_IpAdvanceWraps :
    let s := tiny 65536 0xFFFE [] []
    let t : State := withChannel 1 [0x41] [1] false { tiny 16 0xFFFF [] [] with runState := .suspendedSend 1 7 }
    gives (exec (.add 3 1 2) s) (fun u => u.runState == .waiting) = true ∧ destination (.add 3 1 2) s ≠ some ipReg ∧
      gives (exec (.set 15 7) s) (fun u => u.runState == .waiting && u.reports != s.reports) = true ∧
      t.runState = .suspendedSend 1 7 ∧ gives (step t) (fun u => u.runState == .waiting) = true ∧
      gives (step { t with runState := .suspendedRecv 1 3 }) (fun u => u.runState == .waiting) = true ∧
      (3 : Reg) ≠ ipReg := by decide

theorem witness_DestinationFifteenIsAJump :
    let s := tiny 16 13 [(0, 14), (1, 15), (5, 0x010F)] []
    let t := withChannel 1 [0x0200] [] false s
    let u : State := { t with runState := .suspendedRecv 1 ipReg }
    (3 : Reg) ≠ ipReg ∧ s.ip.toNat + 2 < s.cfg.memSize ∧ (s.reg 0).toNat + 1 < s.cfg.memSize ∧ (1 : Nibble) ≠ 0 ∧
      (s.reg 1).toNat < s.cfg.memSize ∧ lowByte (s.reg 5) = 15 ∧ (∀ ch ∈ s.channels, ch.inbound = []) ∧
      lowByte (t.reg 5) = 15 ∧ (∃ ch ∈ t.channels, ch.inbound ≠ []) ∧
      t.channel? (highByte (t.reg 5)) = some (chan t 1) ∧ (chan t 1).inbound = 0x0200 :: [] ∧
      u.runState = .suspendedRecv 1 ipReg ∧ u.channel? 1 = some (chan u 1) ∧ (chan u 1).inbound = 0x0200 :: [] := by decide

theorem witness_NonzeroSizeFlagsAreEqual : (1 : Nibble) ≠ 0 ∧ (15 : Nibble) ≠ 0 := by decide

end Sys2Proof.Tests
end

section
/-! PROOFS. The registers of 10_state.md: a word and its two addressable bytes. -/

namespace Sys2Proof.Machine

theorem toNat_wordOf (h l : Byte) : (wordOf h l).toNat = h.toNat * 256 + l.toNat := by
  have appended : (wordOf h l).toNat = h.toNat <<< 8 ||| l.toNat := BitVec.toNat_append h l
  rw [appended, ← Nat.shiftLeft_add_eq_or_of_lt l.isLt, Nat.shiftLeft_eq]

theorem toNat_eq_bytes (v : Word) : v.toNat = (highByte v).toNat * 256 + (lowByte v).toNat := by
  rw [← toNat_wordOf, wordOf_bytes]

@[simp] theorem reg_setRegHigh_ne (s : State) {r q : Reg} (b : Byte) (h : q ≠ r) :
    (s.setRegHigh r b).reg q = s.reg q := reg_setReg_ne s _ h

@[simp] theorem reg_setRegLow_ne (s : State) {r q : Reg} (b : Byte) (h : q ≠ r) :
    (s.setRegLow r b).reg q = s.reg q := reg_setReg_ne s _ h

/-- Settles O5: a byte write is a whole write of the word put together from the new byte and the byte kept, so each clause
is a rule of `reg` after a write followed by a rule of the bytes of `wordOf`. -/
theorem registerBytesAndWordsAgree : Obligations.RegisterBytesAndWordsAgree := by
  intro s r v b
  refine ⟨reg_setReg_self s r v, toNat_eq_bytes v, ?highWritten, ?lowKept, ?lowWritten, ?highKept, ?others⟩
  case highWritten => rw [reg_setRegHigh_self, highByte_wordOf]
  case lowKept => rw [reg_setRegHigh_self, lowByte_wordOf]
  case lowWritten => rw [reg_setRegLow_self, lowByte_wordOf]
  case highKept => rw [reg_setRegLow_self, highByte_wordOf]
  case others =>
    intro q hq
    exact ⟨reg_setReg_ne s v hq, reg_setRegHigh_ne s b hq, reg_setRegLow_ne s b hq⟩

end Sys2Proof.Machine
end

section
/-! PROOFS. The memory of 20_memory.md: byte and word accesses at any pair of base and offset. -/

namespace Sys2Proof.Machine

/-! ### The bound decides the answer of each of the four operations (R60, R61, R63, R64) -/

theorem byteAccess_fault (base offset : Word) (v : Byte) (s : State) (h : s.cfg.memSize ≤ effectiveAddress base offset) :
    load8 base offset s = .error (.segfault base offset) ∧ save8 base offset v s = .error (.segfault base offset) := by
  constructor
  · rcases load8_cases base offset s with ⟨-, faults⟩ | ⟨inside, -⟩
    · exact faults
    · exact absurd inside (Nat.not_lt.2 h)
  · rcases save8_cases base offset v s with ⟨-, faults⟩ | ⟨inside, -⟩
    · exact faults
    · exact absurd inside (Nat.not_lt.2 h)

theorem wordAccess_fault (base offset v : Word) (s : State) (h : s.cfg.memSize ≤ effectiveAddress base offset + 1) :
    load16 base offset s = .error (.segfault base offset) ∧ save16 base offset v s = .error (.segfault base offset) := by
  constructor
  · rcases load16_cases base offset s with ⟨-, faults⟩ | ⟨inside, -⟩
    · exact faults
    · exact absurd inside (Nat.not_lt.2 h)
  · rcases save16_cases base offset v s with ⟨-, faults⟩ | ⟨inside, -⟩
    · exact faults
    · exact absurd inside (Nat.not_lt.2 h)

theorem load8_of_lt (base offset : Word) (s : State) (h : effectiveAddress base offset < s.cfg.memSize) :
    load8 base offset s = .ok (s.byteAt (effectiveAddress base offset)) := by
  rcases load8_cases base offset s with ⟨outside, -⟩ | ⟨-, loads⟩
  · exact absurd h (Nat.not_lt.2 outside)
  · exact loads

theorem save8_of_lt (base offset : Word) (v : Byte) (s : State) (h : effectiveAddress base offset < s.cfg.memSize) :
    save8 base offset v s = .ok (s.setByte (effectiveAddress base offset) v) := by
  rcases save8_cases base offset v s with ⟨outside, -⟩ | ⟨-, stores⟩
  · exact absurd h (Nat.not_lt.2 outside)
  · exact stores

theorem load16_of_lt (base offset : Word) (s : State) (h : effectiveAddress base offset + 1 < s.cfg.memSize) :
    load16 base offset s =
      .ok (wordOf (s.byteAt (effectiveAddress base offset)) (s.byteAt (effectiveAddress base offset + 1))) := by
  rcases load16_cases base offset s with ⟨outside, -⟩ | ⟨-, loads⟩
  · exact absurd h (Nat.not_lt.2 outside)
  · exact loads

/-- The state a word store leaves: the high byte at the address, the low byte one above (R64). -/
def State.setWord (s : State) (a : Nat) (v : Word) : State := (s.setByte a (highByte v)).setByte (a + 1) (lowByte v)

theorem save16_of_lt (base offset v : Word) (s : State) (h : effectiveAddress base offset + 1 < s.cfg.memSize) :
    save16 base offset v s = .ok (s.setWord (effectiveAddress base offset) v) := by
  rcases save16_cases base offset v s with ⟨outside, -⟩ | ⟨-, stores⟩
  · exact absurd h (Nat.not_lt.2 outside)
  · exact stores

/-! ### What memory holds after a byte and after a word is stored -/

section Stored

variable (s : State) (a : Nat)

theorem byteAt_setByte_self (b : Byte) (hwf : Memory.wf s.mem = true) : (s.setByte a b).byteAt a = b := by
  rw [byteAt_setByte s a a b hwf, if_pos rfl]

theorem sameMemoryOutside_setByte (b : Byte) (hwf : Memory.wf s.mem = true) :
    SameMemoryOutside a 1 s (s.setByte a b) := by
  intro x hx
  rw [byteAt_setByte s a x b hwf, if_neg (by omega)]

@[simp] theorem setWord_cfg (v : Word) : (s.setWord a v).cfg = s.cfg := rfl

/-- A word store is nothing but a change of memory. -/
theorem setWord_eq (v : Word) : s.setWord a v = { s with mem := (s.setWord a v).mem } := rfl

theorem byteAt_setWord (v : Word) (x : Nat) (hwf : Memory.wf s.mem = true) :
    (s.setWord a v).byteAt x = if x = a + 1 then lowByte v else if x = a then highByte v else s.byteAt x := by
  unfold State.setWord
  rw [byteAt_setByte _ (a + 1) x _ (wf_setByte s a _ hwf), byteAt_setByte s a x _ hwf]

theorem byteAt_setWord_high (v : Word) (hwf : Memory.wf s.mem = true) : (s.setWord a v).byteAt a = highByte v := by
  rw [byteAt_setWord s a v a hwf, if_neg (by omega), if_pos rfl]

theorem byteAt_setWord_low (v : Word) (hwf : Memory.wf s.mem = true) :
    (s.setWord a v).byteAt (a + 1) = lowByte v := by
  rw [byteAt_setWord s a v (a + 1) hwf, if_pos rfl]

theorem sameMemoryOutside_setWord (v : Word) (hwf : Memory.wf s.mem = true) :
    SameMemoryOutside a 2 s (s.setWord a v) := by
  intro x hx
  rw [byteAt_setWord s a v x hwf, if_neg (by omega), if_neg (by omega)]

end Stored

/-- R64: a word load at the pair a word was stored at answers that word. -/
theorem load16_setWord (base offset v : Word) (s : State) (hwf : Memory.wf s.mem = true)
    (h : effectiveAddress base offset + 1 < s.cfg.memSize) :
    load16 base offset (s.setWord (effectiveAddress base offset) v) = .ok v := by
  rw [load16_of_lt base offset _ (by rwa [setWord_cfg]), byteAt_setWord_high s _ v hwf, byteAt_setWord_low s _ v hwf,
    wordOf_bytes]

/-! ### The obligations -/

/-- Settles O6: the bound on the exact sum decides the answer of both operations, and the state `save8` leaves is the one
cell set. -/
theorem byteAccess : Obligations.ByteAccess := by
  intro s base offset v hwf
  refine ⟨byteAccess_fault base offset v s, fun inside => ⟨load8_of_lt base offset s inside, ?stored⟩⟩
  case stored =>
    exact ⟨s.setByte (effectiveAddress base offset) v, save8_of_lt base offset v s inside, rfl,
      byteAt_setByte_self s _ v hwf, sameMemoryOutside_setByte s _ v hwf⟩

/-- Settles O7: as for a byte, with the bound on the address of the second byte; the state `save16` leaves has both bytes
set, and the word read back is put together from them. -/
theorem wordAccess : Obligations.WordAccess := by
  intro s base offset v hwf
  refine ⟨wordAccess_fault base offset v s, fun inside => ⟨load16_of_lt base offset s inside, ?stored⟩⟩
  case stored =>
    exact ⟨s.setWord (effectiveAddress base offset) v, save16_of_lt base offset v s inside, setWord_eq s _ v,
      load16_setWord base offset v s hwf inside, byteAt_setWord_high s _ v hwf, byteAt_setWord_low s _ v hwf,
      sameMemoryOutside_setWord s _ v hwf⟩

/-- Settles O8: `S` is at most 0x10000, so such a sum is beyond the bound of every admitted memory size. -/
theorem addressesNeverWrap : Obligations.AddressesNeverWrap := by
  intro s base offset v b hcfg
  have memSize_le : s.cfg.memSize ≤ 0x10000 := of_decide_eq_true hcfg
  constructor
  · intro byteSum
    exact byteAccess_fault base offset b s (memSize_le.trans byteSum)
  · intro wordSum
    exact wordAccess_fault base offset v s (memSize_le.trans (Nat.succ_le_succ wordSum))

end Sys2Proof.Machine
end

section
/-! PROOFS. The encoding of 30_encoding.md, sections 1 to 3: what the decoder reads from three bytes encodes to the first of
them (R97). -/

namespace Sys2Proof

open Machine

/-! ### Of any instruction: R97, R92 and the opcode's place -/

theorem wellFormed_eq_true (i : Instr) : i.wellFormed = true := by cases i <;> rfl

theorem length_encode (i : Instr) : (encode i).length = lengthOfOpcode i.opcode := by cases i <;> rfl

theorem opcodeLeads (i : Instr) : Laws.OpcodeLeads.Statement i := by
  cases i <;> exact Laws.OpcodeLeads.leads _ _ _ rfl

/-- An encoding is not empty, so the bytes it stands in front of start with its opcode. -/
theorem opcode_of_isPrefix_encode {i : Instr} {b0 : Byte} {rest : List Byte} (h : encode i <+: b0 :: rest) :
    i.opcode = highNibble b0 := by
  have leads : (encode i).head?.map highNibble = some i.opcode := opcodeLeads i
  obtain ⟨after, appended⟩ := h
  cases bytes : encode i with
  | nil => simp [bytes] at leads
  | cons first _ =>
    have first_eq : first = b0 := by rw [bytes] at appended; exact (List.cons.inj appended).1
    simpa [bytes, first_eq] using leads.symm

/-! ### The three formats of R91, filled with the nibbles of the bytes, give the bytes back -/

section Formats
variable {b0 b1 b2 : Byte} {op : Nibble}

theorem byteOf_opcode (h : (highNibble b0).toNat = op.toNat) : byteOf op (lowNibble b0) = b0 := by
  rw [← BitVec.eq_of_toNat_eq h, byteOf_nibbles]

theorem formatB_isPrefix (h : (highNibble b0).toNat = op.toNat) : formatB op (lowNibble b0) <+: [b0, b1, b2] :=
  ⟨[b1, b2], by simp [formatB, byteOf_opcode h]⟩

theorem formatR_isPrefix (h : (highNibble b0).toNat = op.toNat) :
    formatR op (lowNibble b0) (highNibble b1) (lowNibble b1) <+: [b0, b1, b2] :=
  ⟨[b2], by simp [formatR, byteOf_opcode h]⟩

theorem formatI_isPrefix (h : (highNibble b0).toNat = op.toNat) :
    formatI op (lowNibble b0) (wordOf b1 b2) <+: [b0, b1, b2] :=
  ⟨[], by simp [formatI, byteOf_opcode h]⟩

end Formats

/-- The decoder's cases by format: SET is format I, WBUS, SBUS and RBUS are format B, every other row is format R. -/
theorem encode_decodeInsn_isPrefix (b0 b1 b2 : Byte) : encode (decodeInsn (wordOf b0 b1) b2) <+: [b0, b1, b2] := by
  simp only [decodeInsn, opcodeField_wordOf, arg1Field_wordOf, arg2Field_wordOf, arg3Field_wordOf, lowByte_wordOf]
  split
  case h_3 opcode => exact formatI_isPrefix opcode
  case h_4 opcode | h_5 opcode | h_6 opcode => exact formatB_isPrefix opcode
  case h_16 =>
    have opcode : (highNibble b0).toNat = 15 := by
      have below : (highNibble b0).toNat < 16 := (highNibble b0).isLt
      simp only [imp_false] at *
      omega
    exact formatR_isPrefix opcode
  all_goals next opcode => exact formatR_isPrefix opcode

/-- Settles O2: the instruction decoded from three bytes encodes to the first of them, from which its opcode follows; and the
opcode says how many they are. -/
theorem everyBytePatternDecodes : Obligations.EveryBytePatternDecodes := by
  intro b0 b1 b2
  have inFront := encode_decodeInsn_isPrefix b0 b1 b2
  have opcode := opcode_of_isPrefix_encode inFront
  refine ⟨decodeInsn (wordOf b0 b1) b2, decode_three b0 b1 b2, opcode, wellFormed_eq_true _, ?bytes⟩
  case bytes =>
    obtain ⟨after, appended⟩ := inFront
    rw [← opcode, ← length_encode, ← appended, List.take_left]

end Sys2Proof
end

section
/-! PROOFS. STORE of 41_load_store_set.md (R142). -/

namespace Sys2Proof.Machine

theorem decode_store (a b : Reg) (c : Nibble) : decode [byteOf 0x1 a, byteOf b c] = .ok (.store a b c) := by
  have length : lengthOfOpcode (highNibble (byteOf 0x1 a)) = 2 := by rw [highNibble_byteOf]; rfl
  rw [decode_cons _ _ length.le]
  simp [decodeInsn]

/-! ### The frame of an instruction that has changed memory alone -/

section MemoryChanged

variable {s t : State} (w : Nat)

theorem onlyAdvanced_retired (h : t.regs = s.regs) : OnlyAdvanced w s (retired w t) := by
  have reg_eq (r : Reg) : t.reg r = s.reg r := by simp [State.reg, h]
  constructor
  · intro r hr
    rw [reg_retired_ne w t hr, reg_eq]
  · exact advancedBy_retired w s t (reg_eq ipReg)

theorem retired_frame_of_mem (h : t = { s with mem := t.mem }) :
    SamePlatform s (retired w t) ∧ SameBus s (retired w t) ∧ SameOutside s (retired w t) ∧ NoReport s (retired w t) ∧
      (retired w t).whichCount = s.whichCount ∧ (retired w t).runState = .waiting := by
  rw [h]
  exact ⟨samePlatform_rfl rfl rfl rfl, ⟨rfl, rfl⟩, ⟨rfl, rfl, rfl⟩, rfl, rfl, rfl⟩

end MemoryChanged

/-! ### The three answers of STORE -/

section Store

variable (a b : Reg) {c : Nibble} {s : State}

theorem exec_store_word (h : (s.reg b).toNat + 1 < s.cfg.memSize) :
    exec (.store a b 0) s = .next (retired 2 (s.setWord (s.reg b).toNat (s.reg a))) :=
  execStore_word a b s h

theorem exec_store_byte (hc : c ≠ 0) (h : (s.reg b).toNat < s.cfg.memSize) :
    exec (.store a b c) s = .next (retired 2 (s.setByte (s.reg b).toNat (lowByte (s.reg a)))) :=
  execStore_byte a b s hc h

theorem exec_store_fault
    (h : (c = 0 ∧ s.cfg.memSize ≤ (s.reg b).toNat + 1) ∨ (c ≠ 0 ∧ s.cfg.memSize ≤ (s.reg b).toNat)) :
    exec (.store a b c) s = .next (faulted (some 1) (.segfault (s.reg b) 0) 2 s) := by
  rcases h with ⟨rfl, outside⟩ | ⟨byteForm, outside⟩
  · exact execStore_word_fault a b s outside
  · exact execStore_byte_fault a b s byteForm outside

end Store

/-- Settles O34: each form in bounds retires the state its store leaves, which differs from `s` in memory alone; out of
bounds both forms take the same fault. -/
theorem storeResult : Obligations.StoreResult := by
  intro a b c s hwf
  refine ⟨rfl, decode_store a b c, ?word, ?byte, ?outOfBounds⟩
  case word =>
    rintro rfl inside
    exact ⟨_, exec_store_word a b inside, onlyAdvanced_retired 2 rfl, byteAt_setWord_high s _ _ hwf,
      byteAt_setWord_low s _ _ hwf, sameMemoryOutside_setWord s _ _ hwf, retired_frame_of_mem 2 (setWord_eq s _ _)⟩
  case byte =>
    intro byteForm inside
    exact ⟨_, exec_store_byte a b byteForm inside, onlyAdvanced_retired 2 rfl, byteAt_setByte_self s _ _ hwf,
      sameMemoryOutside_setByte s _ _ hwf, retired_frame_of_mem 2 rfl⟩
  case outOfBounds =>
    intro outside
    exact ⟨_, exec_store_fault a b outside, faulted_spec ..⟩

end Sys2Proof.Machine
end

section
/-! PROOFS. EJUMP of 43_jump.md (R192), and what any conditional jump answers (R190). -/

namespace Sys2Proof.Machine

/-! ### Its encoding, format R -/

theorem decode_formatR {op : Nibble} (twoBytes : lengthOfOpcode op = 2) (a b c : Nibble) :
    decode [byteOf op a, byteOf b c] = .ok (decodeInsn (wordOf (byteOf op a) (byteOf b c)) 0) := by
  have length : lengthOfOpcode (highNibble (byteOf op a)) = 2 := by rw [highNibble_byteOf, twoBytes]
  exact decode_cons _ _ length.le

theorem decode_ejump (a b c : Reg) : decode [byteOf 0x7 a, byteOf b c] = .ok (.ejump a b c) := by
  rw [decode_formatR rfl]
  simp [decodeInsn]

/-! ### Its condition -/

theorem allBitsEqual_eq_true (x y : Word) : allBitsEqual x y = true ↔ x.toNat = y.toNat := by
  rw [allBitsEqual, beq_iff_eq, BitVec.toNat_inj]

theorem allBitsEqual_eq_false (x y : Word) : allBitsEqual x y = false ↔ x.toNat ≠ y.toNat := by
  rw [← Bool.not_eq_true, allBitsEqual_eq_true]

/-! ### The two answers of a conditional jump -/

/-- The advance by 0 keeps the target of a taken jump as it was written. -/
@[simp] theorem ip_retired_zero (s : State) : (retired 0 s).ip = s.ip := by
  apply BitVec.eq_of_toNat_eq
  rw [ip_retired, Nat.add_zero, Nat.mod_eq_of_lt s.ip.isLt]

theorem jumpIf_spec (taken : Bool) (c : Reg) (s : State) :
    ∃ t, jumpIf taken c s = .next t ∧ OnlyRegisters s t ∧ (∀ r, r ≠ ipReg → t.reg r = s.reg r) ∧
      (taken = true → t.ip = s.reg c) ∧ (taken = false → AdvancedBy 2 s t) := by
  cases taken with
  | true =>
    refine ⟨retired 0 (s.setIp (s.reg c)), rfl, onlyRegisters_retired 0 s _ rfl, ?others, fun _ => ?target, nofun⟩
    case others =>
      intro r hr
      rw [reg_retired_ne 0 _ hr, reg_setIp_ne s _ hr]
    case target => rw [ip_retired_zero, ip_setIp]
  | false =>
    obtain ⟨others, advanced⟩ : OnlyAdvanced 2 s (retired 2 s) := onlyAdvanced_retired 2 rfl
    exact ⟨retired 2 s, rfl, onlyRegisters_retired 2 s s rfl, others, nofun, fun _ => advanced⟩

/-- Settles O48: EJUMP is the conditional jump on the equality of two words, which is the equality of their numbers. -/
theorem ejumpResult : Obligations.EjumpResult := by
  intro a b c s
  obtain ⟨t, answers, frame, others, target, advanced⟩ := jumpIf_spec (allBitsEqual (s.reg a) (s.reg b)) c s
  rw [allBitsEqual_eq_true] at target
  rw [allBitsEqual_eq_false] at advanced
  exact ⟨decode_ejump a b c, t, answers, frame, others, target, advanced⟩

end Sys2Proof.Machine
end

section
/-! PROOFS. ADD, SUB, SHL, AND, OR, NOT and XOR of 44_alu.md (R201 to R203, R205 to R208): what each computes on numbers or on
bits, and the encoding and the end they all share (R200). -/

namespace Sys2Proof.Machine

/-! ### The encoding, format R -/

/-- An instruction of two bytes is read back from them: all but SET, WBUS, SBUS and RBUS are of format R. -/
theorem decode_encode_of_length_eq_two (i : Instr) (twoBytes : lengthOfOpcode i.opcode = 2) :
    decode (encode i) = .ok i := by
  cases i
  case set | wbus | sbus | rbus => simp [lengthOfOpcode, Instr.opcode] at twoBytes
  all_goals
    rw [encode, formatR, decode_formatR rfl]
    simp [decodeInsn]

/-! ### The end of every ALU instruction (R200) -/

theorem aluResult_spec (a : Reg) (v : Word) (s : State) :
    ∃ t, aluResult a v s = .next t ∧ OnlyRegisters s t ∧ RegWritten a v 2 s t :=
  ⟨retired 2 (s.setReg a v), rfl, onlyRegisters_retired 2 s _ rfl, regWritten_retired a v 2 s s rfl⟩

/-- As `aluResult_spec`, for a result that is given bit by bit. -/
theorem aluResult_spec_of_bits (a : Reg) (v : Word) (s : State) {bit : Nat → Bool} (bits : ∀ n, v.getLsbD n = bit n) :
    ∃ t w, aluResult a v s = .next t ∧ OnlyRegisters s t ∧ RegWritten a w 2 s t ∧ ∀ n, w.getLsbD n = bit n := by
  obtain ⟨t, answers, frame, written⟩ := aluResult_spec a v s
  exact ⟨t, v, answers, frame, written, bits⟩

/-! ### The results as numbers -/

theorem aluAdd_eq_ofNat (x y : Word) : aluAdd x y = BitVec.ofNat 16 ((x.toNat + y.toNat) % 65536) := by
  apply BitVec.eq_of_toNat_eq
  simp [aluAdd]

/-- The non-negative residue: 2^16 is added back exactly where the difference would be negative. -/
theorem aluSub_eq_ofNat (x y : Word) :
    aluSub x y = BitVec.ofNat 16 (if x.toNat < y.toNat then x.toNat + 65536 - y.toNat else x.toNat - y.toNat) := by
  apply BitVec.eq_of_toNat_eq
  rw [aluSub, BitVec.toNat_sub, BitVec.toNat_ofNat]
  split <;> omega

theorem aluShl_eq_ofNat (x n : Word) :
    aluShl x n = if n.toNat ≥ 16 then 0 else BitVec.ofNat 16 (x.toNat * 2 ^ n.toNat % 65536) := by
  have shifted : x <<< n.toNat = BitVec.ofNat 16 (x.toNat * 2 ^ n.toNat % 65536) := by
    apply BitVec.eq_of_toNat_eq
    simp [Nat.shiftLeft_eq]
  rw [aluShl, shifted]

/-- NOT's exclusive or with all ones is the distance to the largest word. -/
theorem xor_allOnes_eq_ofNat (x : Word) : x ^^^ 0xFFFF = BitVec.ofNat 16 (65535 - x.toNat) := by
  have complement : x ^^^ 0xFFFF = ~~~x := BitVec.xor_allOnes
  apply BitVec.eq_of_toNat_eq
  rw [complement, BitVec.toNat_not, BitVec.toNat_ofNat]
  omega

/-! ### The obligations -/

/-- Settles O49: the sum of two words is the sum of their numbers modulo 2^16. -/
theorem addResult : Obligations.AddResult := by
  intro a b c s
  rw [← aluAdd_eq_ofNat]
  exact ⟨decode_encode_of_length_eq_two (.add a b c) rfl, aluResult_spec a _ s⟩

/-- Settles O50: the difference of two words is the non-negative residue. -/
theorem subResult : Obligations.SubResult := by
  intro a b c s
  rw [← aluSub_eq_ofNat]
  exact ⟨decode_encode_of_length_eq_two (.sub a b c) rfl, aluResult_spec a _ s⟩

/-- Settles O51: below 16 a left shift multiplies by the power of two, modulo 2^16; from 16 up both sides are 0. -/
theorem shlResult : Obligations.ShlResult := by
  intro a b c s
  rw [← aluShl_eq_ofNat]
  exact ⟨decode_encode_of_length_eq_two (.shl a b c) rfl, aluResult_spec a _ s⟩

/-- Settles O53: the bits of the conjunction are the conjunctions of the bits. -/
theorem andResult : Obligations.AndResult := by
  intro a b c s
  exact ⟨decode_encode_of_length_eq_two (.and a b c) rfl, aluResult_spec_of_bits a _ s fun _ => BitVec.getLsbD_and⟩

/-- Settles O54: the bits of the disjunction are the disjunctions of the bits. -/
theorem orResult : Obligations.OrResult := by
  intro a b c s
  exact ⟨decode_encode_of_length_eq_two (.or a b c) rfl, aluResult_spec_of_bits a _ s fun _ => BitVec.getLsbD_or⟩

/-- Settles O55: the meaning takes no account of the third field, and every bit inverted is 65535 less the number. -/
theorem notResult : Obligations.NotResult := by
  intro a b c s
  rw [← xor_allOnes_eq_ofNat]
  exact ⟨decode_encode_of_length_eq_two (.not a b c) rfl, fun _ => rfl, aluResult_spec a _ s⟩

/-- Settles O56: the bits of the exclusive or are the inequalities of the bits. -/
theorem xorResult : Obligations.XorResult := by
  intro a b c s
  exact ⟨decode_encode_of_length_eq_two (.xor a b c) rfl, aluResult_spec_of_bits a _ s fun _ => BitVec.getLsbD_xor⟩

end Sys2Proof.Machine
end

section
/-! PROOFS. The encoding of 30_encoding.md, sections 1 to 3: the decoder takes an encoding off the front of any bytes, and the
opcode says how long it is. -/

namespace Sys2Proof

open Machine

/-! ### The three formats of R91 at the head of a list -/

section Formats
variable {op : Nibble} (rest : List Byte)

theorem decode_formatB_append (length : lengthOfOpcode op = 1) (a : Nibble) :
    decode (formatB op a ++ rest) = .ok (decodeInsn (wordOf (byteOf op a) (rest.getD 0 0)) (rest.getD 1 0)) :=
  decode_cons _ rest (by rw [highNibble_byteOf, length]; exact Nat.le_add_left 1 _)

theorem decode_formatR_append (length : lengthOfOpcode op = 2) (a b c : Nibble) :
    decode (formatR op a b c ++ rest) =
      .ok (decodeInsn (wordOf (byteOf op a) (byteOf b c)) (rest.getD 0 0)) :=
  decode_cons _ (byteOf b c :: rest) (by rw [highNibble_byteOf, length]; exact Nat.le_add_left 2 _)

theorem decode_formatI_append (length : lengthOfOpcode op = 3) (a : Nibble) (imm : Word) :
    decode (formatI op a imm ++ rest) = .ok (decodeInsn (wordOf (byteOf op a) (highByte imm)) (lowByte imm)) :=
  decode_cons _ (highByte imm :: lowByte imm :: rest) (by rw [highNibble_byteOf, length]; exact Nat.le_add_left 3 _)

end Formats

/-- Settles O1: format by format, the bytes after an encoding reach at most a place of the decoder that the opcode does not
read, and the fields of the bytes the opcode does read are the operands. -/
theorem decodeInvertsEncode : Obligations.DecodeInvertsEncode := by
  intro i rest _
  cases i
  case set a imm =>
    rw [encode, decode_formatI_append rest rfl]
    simp [decodeInsn]
  case wbus | sbus | rbus =>
    rw [encode, decode_formatB_append rest rfl]
    simp [decodeInsn]
  all_goals
    rw [encode, decode_formatR_append rest rfl]
    simp [decodeInsn]

/-! ### The length (R92) -/

theorem lengthOfOpcode_eq (op : Nibble) :
    lengthOfOpcode op = if op.toNat = 2 then 3 else if 3 ≤ op.toNat ∧ op.toNat ≤ 5 then 1 else 2 := by
  revert op; decide

/-- Settles O3: an encoding is as long as its opcode says. -/
theorem opcodeDecidesTheLength : Obligations.OpcodeDecidesTheLength := by
  intro i
  rw [length_encode, lengthOfOpcode_eq]

/-- Settles O4: the decoder evaluated on each of the eight lists of bytes. -/
theorem sampleWordsDecode : Obligations.SampleWordsDecode :=
  ⟨by decide, by decide, by decide, by decide, by decide, by decide, by decide, by decide⟩

end Sys2Proof
end

section
/-! PROOFS. The invariant of the machine: which operations keep it, and that every step does. -/

namespace Sys2Proof.Machine

/-! ### Channels are told apart by their addresses (10_state.md R31) -/

theorem channelsWellFormed_cons {p : ChannelParams} {l : List ChannelParams} (h : channelsWellFormed (p :: l) = true) :
    (∀ q ∈ l, p.addr < q.addr) ∧ channelsWellFormed l = true := by
  induction l generalizing p with
  | nil => exact ⟨nofun, rfl⟩
  | cons q rest ih =>
    obtain ⟨first, others⟩ : p.addr < q.addr ∧ channelsWellFormed (q :: rest) = true := by
      simpa [channelsWellFormed] using h
    refine ⟨fun r hr => ?_, others⟩
    rcases List.mem_cons.1 hr with rfl | hr
    · exact first
    · exact BitVec.lt_trans first ((ih others).1 r hr)

theorem addr_nodup {l : List ChannelParams} (h : channelsWellFormed l = true) : (l.map ChannelParams.addr).Nodup := by
  induction l with
  | nil => exact List.nodup_nil
  | cons p rest ih =>
    obtain ⟨above, others⟩ := channelsWellFormed_cons h
    refine List.nodup_cons.2 ⟨fun hp => ?_, ih others⟩
    obtain ⟨q, hq, same⟩ := List.mem_map.1 hp
    exact BitVec.lt_irrefl _ (same ▸ above q hq)

/-- A channel of the platform is the one its address finds. -/
theorem State.Inv.eq_of_channel {s : State} (hs : s.Inv) {c : Byte} {ch ch' : Channel} (found : s.channel? c = some ch)
    (mem : ch' ∈ s.channels) (addr : ch'.params.addr = c) : ch' = ch := by
  have distinct : (s.channels.map fun x => x.params.addr).Nodup := by
    simpa [List.map_map, Function.comp_def] using addr_nodup hs.channels
  exact List.inj_on_of_nodup_map distinct mem (List.mem_of_find?_eq_some found)
    (addr.trans (addr_of_channel s c ch found).symm)

/-! ### Operations that keep the invariant -/

section Kept
variable {s t : State}

/-- The invariant looks at memory, memory size and channels, and apart from them at the run state and the counter of passed
events. -/
theorem State.Inv.congr (hs : s.Inv) (cfg : t.cfg = s.cfg) (mem : t.mem = s.mem) (channels : t.channels = s.channels)
    (runState : t.runStateInv = true) (passed : t.irqPassed ≤ Config.irqLatency) : t.Inv where
  memSize := cfg ▸ hs.memSize
  memCanonical := mem ▸ hs.memCanonical
  memInside := by rw [cfg, mem]; exact hs.memInside
  channels := channels ▸ hs.channels
  fifos := channels ▸ hs.fifos
  runState := runState
  irqPassed := passed

theorem State.Inv.retired (hs : s.Inv) (w : Nat) : (retired w s).Inv := hs.congr rfl rfl rfl rfl hs.irqPassed

theorem State.Inv.setReg (hs : s.Inv) (r : Reg) (v : Word) : (s.setReg r v).Inv :=
  hs.congr rfl rfl rfl hs.runState hs.irqPassed

theorem State.Inv.suspend (hs : s.Inv) {r : RunState} (known : (suspend r s).runStateInv = true) : (suspend r s).Inv :=
  hs.congr rfl rfl rfl known hs.irqPassed

theorem State.Inv.setByte (hs : s.Inv) {a : Nat} (v : Byte) (inside : a < s.cfg.memSize) : (s.setByte a v).Inv where
  memSize := hs.memSize
  memCanonical := wf_setByte s a v hs.memCanonical
  memInside cell hcell := by
    rcases Memory.mem_write s.mem a v cell hcell with old | new
    · exact hs.memInside cell old
    · exact new ▸ inside
  channels := hs.channels
  fifos := hs.fifos
  runState := hs.runState
  irqPassed := hs.irqPassed

theorem runStateInv_updateChannel (c : Byte) (f : Channel → Channel) (params : ∀ x : Channel, (f x).params = x.params) :
    (s.updateChannel c f).runStateInv = s.runStateInv := by
  simp only [State.runStateInv, updateChannel_runState, channel_updateChannel_isSome s c _ f params]; rfl

theorem State.Inv.updateChannel (hs : s.Inv) {c : Byte} {f : Channel → Channel}
    (params : ∀ x : Channel, (f x).params = x.params)
    (bounds : ∀ ch ∈ s.channels, ch.params.addr = c → (f ch).Inv) : (s.updateChannel c f).Inv where
  memSize := hs.memSize
  memCanonical := hs.memCanonical
  memInside := hs.memInside
  channels := by rw [params_updateChannel s c f params]; exact hs.channels
  fifos ch' hch' := by
    obtain ⟨ch, hch, rfl⟩ := List.mem_map.1 hch'
    split
    · next addr => exact bounds ch hch (beq_iff_eq.1 addr)
    · exact hs.fifos ch hch
  runState := (runStateInv_updateChannel c f params).trans hs.runState
  irqPassed := hs.irqPassed

theorem State.Inv.sendWord (hs : s.Inv) {c : Byte} {ch : Channel} (v : Word) (found : s.channel? c = some ch)
    (accepts : ch.canAccept = true) : (sendWord c v s).Inv := by
  have sentOn : (s.updateChannel c (Channel.accept v)).Inv := by
    refine hs.updateChannel (Channel.accept_params v) fun ch' mem addr => ?_
    rw [hs.eq_of_channel found mem addr]
    exact ch.accept_inv v ((canAccept_iff ch).1 accepts) (hs.fifos ch (List.mem_of_find?_eq_some found))
  exact sentOn.congr rfl rfl rfl sentOn.runState sentOn.irqPassed

theorem Channel.deliver_inv {ch : Channel} (h : ch.Inv) : ch.deliver.Inv := by
  obtain ⟨out, inb, receive⟩ := h
  refine ⟨out, ?_, receive⟩
  rw [Channel.deliver, List.length_tail]
  exact (Nat.sub_le _ _).trans inb

theorem State.Inv.deliver (hs : s.Inv) (c : Byte) : (s.updateChannel c Channel.deliver).Inv :=
  hs.updateChannel Channel.deliver_params fun ch mem _ => Channel.deliver_inv (hs.fifos ch mem)

theorem inv_envMove (hs : s.Inv) (m : EnvMove) : (envMove m s).Inv := by
  rcases envMove_cases m s with same | raised | ⟨c, f, params, bounds, changed⟩
  · rw [same]; exact hs
  · rw [raised]; exact hs.congr rfl rfl rfl hs.runState hs.irqPassed
  · rw [changed]; exact hs.updateChannel params fun ch mem _ => bounds ch (hs.fifos ch mem)

theorem inv_letEnvMove (hs : s.Inv) : (letEnvMove s).Inv := by
  cases script : s.env with
  | nil => rw [letEnvMove_nil script]; exact hs
  | cons m rest =>
    rw [letEnvMove_cons script]
    have scriptRead : ({ s with env := rest } : State).Inv := hs.congr rfl rfl rfl hs.runState hs.irqPassed
    exact inv_envMove scriptRead m

end Kept

/-! ### Instructions and steps keep the invariant -/

/-- What a change of registers and of the free value's counter leaves, field by field. -/
theorem fields_of_registers {s t : State} (h : t = { s with regs := t.regs, whichCount := t.whichCount }) :
    t.mem = s.mem ∧ t.cfg = s.cfg ∧ t.boot = s.boot ∧ t.channels = s.channels ∧ t.irqPending = s.irqPending ∧
    t.runState = s.runState ∧ t.reports = s.reports ∧ t.sent = s.sent ∧ t.env = s.env ∧ t.irqPassed = s.irqPassed := by
  rw [h]
  exact ⟨rfl, rfl, rfl, rfl, rfl, rfl, rfl, rfl, rfl, rfl⟩

theorem exec_keeps_inv {i : Instr} {s t : State} (hs : s.Inv) (ends : exec i s = .next t) : t.Inv := by
  have shape := exec_shape s i
  rw [ends] at shape
  cases shape with
  | registers u w same =>
    obtain ⟨mem, cfg, -, channels, -, -, -, -, -, passed⟩ := fields_of_registers same
    exact hs.congr cfg mem channels rfl (passed.trans_le hs.irqPassed)
  | storeByte addr v inside => exact (hs.setByte v inside).retired 2
  | storeWord addr v w inside => exact ((hs.setByte v (Nat.lt_of_succ_lt inside)).setByte w inside).retired 2
  | fault op f w => exact hs.congr rfl rfl rfl rfl hs.irqPassed
  | sent c v ch found accepts => exact (hs.sendWord v found accepts).retired 1
  | received c k ch v rest found word => exact ((hs.deliver c).setReg k v).retired 1
  | heldSend c v ch found => exact hs.suspend (by simp [State.runStateInv, found])
  | heldRecv c k ch found => exact hs.suspend (by simp [State.runStateInv, found])

/-- Settles O12: each shape a step can have is made of operations that keep the invariant; the boot index stays within the
image because the byte at it was there, and an event passes a pending interrupt only below the bound. -/
theorem everyStepKeepsTheInvariant : Obligations.EveryStepKeepsTheInvariant := by
  intro s t hs answer
  have shape := step_shape s
  rw [answer] at shape
  cases shape with
  | final => exact hs
  | bootStart env => exact hs.congr rfl rfl rfl (decide_eq_true (Nat.zero_le s.boot.length)) hs.irqPassed
  | bootByte n v booting byte inside =>
    have within : n < s.boot.length := (List.getElem?_eq_some_iff.1 byte).1
    exact (hs.setByte v inside).congr rfl rfl rfl (decide_eq_true within) hs.irqPassed
  | bootFail => exact hs.congr rfl rfl rfl rfl hs.irqPassed
  | bootEnd => exact hs.congr rfl rfl rfl rfl hs.irqPassed
  | fetchFault => exact hs.congr rfl rfl rfl rfl hs.irqPassed
  | instruction i _ _ _ _ ends => exact exec_keeps_inv hs ends.symm
  | sendEnds c v ch _ found accepts => exact (hs.sendWord v found accepts).retired 1
  | recvEnds c k ch v rest _ found word => exact ((hs.deliver c).setReg k v).retired 1
  | held => exact inv_letEnvMove hs
  | moved => exact inv_letEnvMove hs
  | passed m rest script _ _ below =>
    exact inv_letEnvMove (hs.congr rfl rfl rfl hs.runState below)
  | ticked env n _ counted =>
    refine hs.congr rfl rfl rfl rfl ?_
    rcases counted with rfl | ⟨rfl, below⟩
    · exact hs.irqPassed
    · exact below
  | ended => exact hs.congr rfl rfl rfl rfl hs.irqPassed

/-! ### At reset -/

theorem reset_inv (p : ChannelParams) : (Channel.reset p).Inv :=
  ⟨Nat.zero_le _, Nat.zero_le _, nofun⟩

theorem params_reset (channels : List ChannelParams) : (channels.map Channel.reset).map Channel.params = channels := by
  rw [List.map_map]
  exact List.map_id channels

theorem resetWith_inv {cfg : Config} {channels : List ChannelParams} (boot : BootMedium) (size : cfg.wellFormed = true)
    (distinct : channelsWellFormed channels = true) : (State.resetWith cfg channels boot).Inv where
  memSize := size
  memCanonical := rfl
  memInside := nofun
  channels := by rw [State.resetWith, params_reset]; exact distinct
  fifos ch hch := by
    obtain ⟨p, -, rfl⟩ := List.mem_map.1 hch
    exact reset_inv p
  runState := rfl
  irqPassed := Nat.zero_le _

/-- Settles O13: memory and FIFOs are empty at reset, and the reference platform is admitted. -/
theorem resetMeetsTheInvariant : Obligations.ResetMeetsTheInvariant :=
  ⟨fun _ _ boot size distinct => resetWith_inv boot size distinct,
    resetWith_inv BootMedium.empty (by decide) (by decide)⟩

/-- Settles O14: every register is a cell of the constant file, every byte an unlisted one. -/
theorem resetValues : Obligations.ResetValues := by
  intro cfg channels boot
  refine ⟨fun r => ?register, fun _ => rfl, rfl, rfl, rfl, rfl, rfl, rfl, params_reset channels, fun ch hch => ?fifos⟩
  case register => simp [State.reg, State.resetWith]
  case fifos =>
    obtain ⟨p, -, rfl⟩ := List.mem_map.1 hch
    exact ⟨rfl, rfl⟩

end Sys2Proof.Machine
end

section
/-! PROOFS. What a step of the machine keeps, whatever the run state: the platform, the order of words in a channel, the
outputs, the interrupt. -/

namespace Sys2Proof.Machine

/-! ### What a move of another agent keeps (10_state.md R38) -/

section Moves
variable (m : EnvMove) (s : State)

theorem samePlatform_updateChannel (c : Byte) (f : Channel → Channel) (params : ∀ x : Channel, (f x).params = x.params) :
    SamePlatform s (s.updateChannel c f) :=
  ⟨rfl, rfl, params_updateChannel s c f params⟩

theorem envMove_frame :
    (envMove m s).regs = s.regs ∧ (envMove m s).mem = s.mem ∧ (envMove m s).reports = s.reports ∧
    (envMove m s).runState = s.runState ∧ (envMove m s).sent = s.sent ∧ SamePlatform s (envMove m s) := by
  rcases envMove_cases m s with same | raised | ⟨c, f, params, -, changed⟩
  · rw [same]; exact ⟨rfl, rfl, rfl, rfl, rfl, rfl, rfl, rfl⟩
  · rw [raised]; exact ⟨rfl, rfl, rfl, rfl, rfl, rfl, rfl, rfl⟩
  · rw [changed]; exact ⟨rfl, rfl, rfl, rfl, rfl, samePlatform_updateChannel s c f params⟩

@[simp] theorem envMove_runState : (envMove m s).runState = s.runState := by cases m <;> rfl

@[simp] theorem envMove_env : (envMove m s).env = s.env := by cases m <;> rfl

/-- The moves that raise the interrupt (10_state.md R34). -/
def EnvMove.Raises (m : EnvMove) : Prop := m = .closeSink ∨ ∃ r, m = .interrupt r

theorem envMove_irqPending_of_pending (h : s.irqPending = true) : (envMove m s).irqPending = true := by
  cases m with
  | interrupt | closeSink => rfl
  | tick | startBoot | offer | take => exact h

theorem raises_of_envMove (before : s.irqPending = false) (after : (envMove m s).irqPending = true) : m.Raises := by
  have unchanged (same : (envMove m s).irqPending = s.irqPending) : m.Raises :=
    absurd (same.symm.trans after) (by simp [before])
  cases m with
  | interrupt r => exact .inr ⟨r, rfl⟩
  | closeSink => exact .inl rfl
  | tick | startBoot | offer | take => exact unchanged rfl

end Moves

section Script
variable (s : State)

theorem samePlatform_letEnvMove : SamePlatform s (letEnvMove s) := by
  obtain ⟨-, -, cfg, boot, -, -, -, -, -, -, params⟩ := letEnvMove_frame s
  exact ⟨cfg, boot, params⟩

theorem letEnvMove_runState : (letEnvMove s).runState = s.runState := by
  obtain ⟨-, -, -, -, runState, -⟩ := letEnvMove_frame s
  exact runState

theorem letEnvMove_reports : (letEnvMove s).reports = s.reports := by
  obtain ⟨-, -, -, -, -, reports, -⟩ := letEnvMove_frame s
  exact reports

theorem letEnvMove_sent : (letEnvMove s).sent = s.sent := by
  obtain ⟨-, -, -, -, -, -, sent, -⟩ := letEnvMove_frame s
  exact sent

theorem letEnvMove_irqPending_of_pending (h : s.irqPending = true) : (letEnvMove s).irqPending = true := by
  cases script : s.env with
  | nil => rwa [letEnvMove_nil script]
  | cons m rest =>
    rw [letEnvMove_cons script]
    exact envMove_irqPending_of_pending m _ h

theorem raises_of_letEnvMove (before : s.irqPending = false) (after : (letEnvMove s).irqPending = true) :
    ∃ m rest, s.env = m :: rest ∧ (letEnvMove s).env = rest ∧ m.Raises := by
  cases script : s.env with
  | nil => rw [letEnvMove_nil script, before] at after; exact absurd after nofun
  | cons m rest =>
    rw [letEnvMove_cons script] at after ⊢
    exact ⟨m, rest, rfl, envMove_env m _, raises_of_envMove m { s with env := rest } before after⟩

end Script

/-! ### What every instruction keeps, and what it puts out -/

section Instruction
variable {i : Instr} {s t : State}

theorem exec_samePlatform_sameOutside (ends : exec i s = .next t) : SamePlatform s t ∧ SameOutside s t := by
  have shape := exec_shape s i
  rw [ends] at shape
  cases shape with
  | registers u w same =>
    obtain ⟨-, cfg, boot, channels, irqPending, -, -, -, env, irqPassed⟩ := fields_of_registers same
    exact ⟨samePlatform_rfl cfg boot channels, irqPending, env, irqPassed⟩
  | storeByte | storeWord | fault | heldSend | heldRecv => exact ⟨samePlatform_rfl rfl rfl rfl, rfl, rfl, rfl⟩
  | sent c v => exact ⟨samePlatform_updateChannel s c _ (Channel.accept_params v), rfl, rfl, rfl⟩
  | received c => exact ⟨samePlatform_updateChannel s c _ Channel.deliver_params, rfl, rfl, rfl⟩

theorem exec_runState (ends : exec i s = .next t) :
    t.runState = .waiting ∨ (∃ c v, t.runState = .suspendedSend c v) ∨ ∃ c k, t.runState = .suspendedRecv c k := by
  have shape := exec_shape s i
  rw [ends] at shape
  cases shape with
  | registers | storeByte | storeWord | fault | sent | received => exact .inl rfl
  | heldSend c v => exact .inr (.inl ⟨c, v, rfl⟩)
  | heldRecv c k => exact .inr (.inr ⟨c, k, rfl⟩)

theorem exec_reports (ends : exec i s = .next t) :
    t.reports = s.reports ∨
    ∃ r, t.reports = s.reports ++ [r] ∧ r.ip = s.ip ∧ t.runState = .waiting ∧ t.sent = s.sent := by
  have shape := exec_shape s i
  rw [ends] at shape
  cases shape with
  | registers u w same =>
    obtain ⟨-, -, -, -, -, -, reports, -⟩ := fields_of_registers same
    exact .inl reports
  | storeByte | storeWord | sent | received | heldSend | heldRecv => exact .inl rfl
  | fault op f w => exact .inr ⟨_, rfl, rfl, rfl, rfl⟩

theorem exec_sent (ends : exec i s = .next t) :
    t.sent = s.sent ∨ ∃ c v, t.sent = s.sent ++ [(c, v)] ∧ (s.channel? c).isSome = true := by
  have shape := exec_shape s i
  rw [ends] at shape
  cases shape with
  | registers u w same =>
    obtain ⟨-, -, -, -, -, -, -, sent, -⟩ := fields_of_registers same
    exact .inl sent
  | storeByte | storeWord | fault | received | heldSend | heldRecv => exact .inl rfl
  | sent c v ch found => exact .inr ⟨c, v, rfl, Option.isSome_of_eq_some found⟩

end Instruction

/-! ### The step -/

/-- Settles O15: each shape of a step names the run state it starts from and the one it leaves; a move of another agent leaves
it as it was. -/
theorem runStateTransitions : Obligations.RunStateTransitions := by
  intro s t answer
  have shape := step_shape s
  rw [answer] at shape
  cases shape with
  | final before =>
    rcases before with before | before <;> rw [before] <;> rfl
  | bootStart env before => rw [before]; exact .inr rfl
  | bootByte n v before => rw [before]; exact .inr (.inl rfl)
  | bootFail n before => rw [before]; exact .inr (.inr (.inr rfl))
  | bootEnd n before => rw [before]; exact .inr (.inr (.inl rfl))
  | fetchFault before => rw [before]; exact .inl rfl
  | instruction i _ before _ _ ends => rw [before]; exact exec_runState ends.symm
  | sendEnds c v ch before => rw [before]; exact .inr rfl
  | recvEnds c k ch v rest before => rw [before]; exact .inr rfl
  | held before =>
    rw [letEnvMove_runState]
    rcases before with ⟨c, v, before⟩ | ⟨c, k, before⟩ <;> rw [before] <;> exact .inl rfl
  | moved m rest script before =>
    rw [letEnvMove_runState]
    rcases before with before | ⟨n, before⟩ | before <;> rw [before] <;> exact .inl rfl
  | passed m rest script before => rw [letEnvMove_runState, before]; exact .inl rfl
  | ticked env n before => rw [before]; exact .inr (.inl rfl)
  | ended before => rw [before]; exact .inr (.inr rfl)

/-- Settles O17: of the shapes of a step only the end of the run at the wait point leads to a terminated state from another
one. -/
theorem onlyThePendingInterruptEndsTheRun : Obligations.OnlyThePendingInterruptEndsTheRun := by
  intro s t answer after before
  have shape := step_shape s
  rw [answer] at shape
  cases shape with
  | ended waiting pending => exact ⟨waiting, pending, rfl⟩
  | final => exact absurd after before
  | held | moved => exact absurd ((letEnvMove_runState s).symm.trans after) before
  | passed => exact absurd ((letEnvMove_runState _).symm.trans after) before
  | instruction i _ _ _ _ ends =>
    rcases exec_runState ends.symm with other | ⟨_, _, other⟩ | ⟨_, _, other⟩ <;> exact absurd (other.symm.trans after) nofun
  | bootStart | bootByte | bootFail | bootEnd | fetchFault | sendEnds | recvEnds | ticked => exact absurd after nofun

/-- Settles O24: no operation a step is made of touches the platform; a change of a channel keeps its parameters. -/
theorem platformIsFixed : Obligations.PlatformIsFixed := by
  intro s t answer
  have shape := step_shape s
  rw [answer] at shape
  cases shape with
  | final | bootStart | bootByte | bootFail | bootEnd | fetchFault | ticked | ended => exact samePlatform_rfl rfl rfl rfl
  | instruction i _ _ _ _ ends =>
    obtain ⟨platform, -⟩ := exec_samePlatform_sameOutside ends.symm
    exact platform
  | sendEnds c v => exact samePlatform_updateChannel s c _ (Channel.accept_params v)
  | recvEnds c => exact samePlatform_updateChannel s c _ Channel.deliver_params
  | held | moved => exact samePlatform_letEnvMove s
  | passed => exact samePlatform_letEnvMove { s with irqPassed := s.irqPassed + 1 }

/-- Settles O25: a report comes from a failed fetch or from an instruction, both of a running core. -/
theorem reportsComeOneByOneInOrder : Obligations.ReportsComeOneByOneInOrder := by
  intro s t answer
  have shape := step_shape s
  rw [answer] at shape
  cases shape with
  | fetchFault running => exact .inr ⟨_, rfl, rfl, running, rfl, rfl⟩
  | instruction i _ running _ _ ends =>
    rcases exec_reports ends.symm with none | ⟨r, reports, ip, waiting, sent⟩
    · exact .inl none
    · exact .inr ⟨r, reports, ip, running, waiting, sent⟩
  | held | moved => exact .inl (letEnvMove_reports s)
  | passed => exact .inl (letEnvMove_reports _)
  | final | bootStart | bootByte | bootFail | bootEnd | sendEnds | recvEnds | ticked | ended => exact .inl rfl

/-- Settles O26: a word is sent by an instruction of a running core, or by the end of a suspended SBUS. -/
theorem wordsAreSentOneByOneInOrder : Obligations.WordsAreSentOneByOneInOrder := by
  intro s t answer
  have shape := step_shape s
  rw [answer] at shape
  cases shape with
  | instruction i _ running _ _ ends =>
    rcases exec_sent ends.symm with none | ⟨c, v, sent, known⟩
    · exact .inl none
    · exact .inr ⟨c, v, sent, known, .inl running⟩
  | sendEnds c v ch suspended found => exact .inr ⟨c, v, rfl, Option.isSome_of_eq_some found, .inr suspended⟩
  | held | moved => exact .inl (letEnvMove_sent s)
  | passed => exact .inl (letEnvMove_sent _)
  | final | bootStart | bootByte | bootFail | bootEnd | fetchFault | recvEnds | ticked | ended => exact .inl rfl

/-- Settles O21: only the moves of the script touch the pending bit, and of these only a record and the closing of the sink,
which set it. -/
theorem interruptIsLatched : Obligations.InterruptIsLatched := by
  refine ⟨fun s r => ⟨rfl, rfl⟩, fun s t answer => ?_⟩
  have unchanged (same : t.irqPending = s.irqPending) :
      (s.irqPending = true → t.irqPending = true) ∧
      (s.irqPending = false → t.irqPending = true →
        ∃ m rest, s.env = m :: rest ∧ t.env = rest ∧ m.Raises) :=
    ⟨fun before => same.trans before, fun before after => absurd (before.symm.trans (same.symm.trans after)) nofun⟩
  have shape := step_shape s
  rw [answer] at shape
  cases shape with
  | held | moved => exact ⟨letEnvMove_irqPending_of_pending s, raises_of_letEnvMove s⟩
  | passed =>
    let counted : State := { s with irqPassed := s.irqPassed + 1 }
    exact ⟨letEnvMove_irqPending_of_pending counted, raises_of_letEnvMove counted⟩
  | instruction i _ _ _ _ ends =>
    obtain ⟨-, irqPending, -⟩ := exec_samePlatform_sameOutside ends.symm
    exact unchanged irqPending
  | final | bootStart | bootByte | bootFail | bootEnd | fetchFault | sendEnds | recvEnds | ticked | ended => exact unchanged rfl

/-- Settles O23: the frame of a move, and that the steps before boot and at the wait point are made of moves and changes of the
run state. -/
theorem othersNeverTouchRegistersOrMemory : Obligations.OthersNeverTouchRegistersOrMemory := by
  refine ⟨envMove_frame, fun s t before answer => ?_⟩
  have elsewhere {P : Prop} {r : RunState} (h : s.runState = r) (waiting : r ≠ .waiting) (reset : r ≠ .reset) : P := by
    rcases before with before | before
    · exact absurd (h.symm.trans before) waiting
    · exact absurd (h.symm.trans before) reset
  have shape := step_shape s
  rw [answer] at shape
  cases shape with
  | final | bootStart | bootFail | ticked | ended => exact ⟨rfl, rfl⟩
  | bootByte n v h => exact elsewhere h nofun nofun
  | bootEnd n h => exact elsewhere h nofun nofun
  | fetchFault h => exact elsewhere h nofun nofun
  | instruction i _ h => exact elsewhere h nofun nofun
  | sendEnds c v ch h => exact elsewhere h nofun nofun
  | recvEnds c k ch v rest h => exact elsewhere h nofun nofun
  | held | moved =>
    obtain ⟨regs, mem, -⟩ := letEnvMove_frame s
    exact ⟨regs, mem⟩
  | passed =>
    obtain ⟨regs, mem, -⟩ := letEnvMove_frame { s with irqPassed := s.irqPassed + 1 }
    exact ⟨regs, mem⟩

/-! ### Words keep their order in a channel (10_state.md R31) -/

/-- A FIFO left alone, with one word more at its end, or without the word at its head. -/
def FifoMoves (before after : List Word) : Prop :=
  after = before ∨ (∃ v, after = before ++ [v]) ∨ ∃ v, before = v :: after

theorem fifoMoves_tail (l : List Word) : FifoMoves l l.tail := by
  cases l with
  | nil => exact .inl rfl
  | cons v rest => exact .inr (.inr ⟨v, rfl⟩)

/-- Both FIFOs of a channel have moved by at most a word and its parameters are the same. -/
def Channel.Moves (ch ch' : Channel) : Prop :=
  ch'.params = ch.params ∧ FifoMoves ch.inbound ch'.inbound ∧ FifoMoves ch.outbound ch'.outbound

theorem Channel.moves_refl (ch : Channel) : ch.Moves ch := ⟨rfl, .inl rfl, .inl rfl⟩

theorem Channel.moves_accept (v : Word) (ch : Channel) : ch.Moves (ch.accept v) := ⟨rfl, .inl rfl, .inr (.inl ⟨v, rfl⟩)⟩

theorem Channel.moves_deliver (ch : Channel) : ch.Moves ch.deliver := ⟨rfl, fifoMoves_tail _, .inl rfl⟩

theorem Channel.moves_offer (v : Word) (ch : Channel) : ch.Moves (ch.offer v) := by
  unfold Channel.offer
  split
  · exact ⟨rfl, .inr (.inl ⟨v, rfl⟩), .inl rfl⟩
  · exact ch.moves_refl

theorem Channel.moves_take (ch : Channel) : ch.Moves ch.take := by
  unfold Channel.take
  split
  · exact ch.moves_refl
  · next w rest outbound => exact ⟨rfl, .inl rfl, .inr (.inr ⟨w, outbound⟩)⟩

/-- Every channel has moved so. -/
def ChannelsMove (s t : State) : Prop := ∀ c ch, s.channel? c = some ch → ∃ ch', t.channel? c = some ch' ∧ ch.Moves ch'

section ChannelsMove
variable {s t : State}

theorem channelsMove_of_same (same : t.channels = s.channels) : ChannelsMove s t := by
  intro c ch found
  exact ⟨ch, by rwa [State.channel?, same], ch.moves_refl⟩

theorem channelsMove_updateChannel (c : Byte) (f : Channel → Channel) (moves : ∀ ch : Channel, ch.Moves (f ch)) :
    ChannelsMove s (s.updateChannel c f) := by
  have params (ch : Channel) : (f ch).params = ch.params := (moves ch).1
  intro c' ch found
  rw [channel_updateChannel s c c' f params, found]
  refine ⟨_, rfl, ?_⟩
  dsimp only
  split
  · exact moves ch
  · exact ch.moves_refl

theorem channelsMove_envMove (m : EnvMove) (s : State) : ChannelsMove s (envMove m s) := by
  cases m with
  | tick | startBoot | interrupt | closeSink => exact channelsMove_of_same rfl
  | offer c v => exact channelsMove_updateChannel c _ (Channel.moves_offer v)
  | take c => exact channelsMove_updateChannel c _ Channel.moves_take

theorem channelsMove_letEnvMove (s : State) : ChannelsMove s (letEnvMove s) := by
  cases script : s.env with
  | nil => rw [letEnvMove_nil script]; exact channelsMove_of_same rfl
  | cons m rest => rw [letEnvMove_cons script]; exact channelsMove_envMove m { s with env := rest }

theorem exec_channelsMove {i : Instr} (ends : exec i s = .next t) : ChannelsMove s t := by
  have shape := exec_shape s i
  rw [ends] at shape
  cases shape with
  | registers u w same =>
    obtain ⟨-, -, -, channels, -⟩ := fields_of_registers same
    exact channelsMove_of_same channels
  | storeByte | storeWord | fault | heldSend | heldRecv => exact channelsMove_of_same rfl
  | sent c v => exact channelsMove_updateChannel c _ (Channel.moves_accept v)
  | received c => exact channelsMove_updateChannel c _ Channel.moves_deliver

end ChannelsMove

/-- Settles O27: accepting, delivering, offering and taking each move one end of one FIFO, and a step makes at most one of
them. -/
theorem channelsAreFifos : Obligations.ChannelsAreFifos := by
  intro s t c ch answer
  suffices moves : ChannelsMove s t from moves c ch
  have shape := step_shape s
  rw [answer] at shape
  cases shape with
  | final | bootStart | bootByte | bootFail | bootEnd | fetchFault | ticked | ended => exact channelsMove_of_same rfl
  | instruction i _ _ _ _ ends => exact exec_channelsMove ends.symm
  | sendEnds c v => exact channelsMove_updateChannel c _ (Channel.moves_accept v)
  | recvEnds c => exact channelsMove_updateChannel c _ Channel.moves_deliver
  | held | moved => exact channelsMove_letEnvMove s
  | passed => exact channelsMove_letEnvMove { s with irqPassed := s.irqPassed + 1 }

/-- Settles O28: a peripheral's move is a change of the channel its address finds, which is read back changed, and of no
other. -/
theorem peripheralMoves : Obligations.PeripheralMoves := by
  intro s c ch v found
  have taken : (envMove (.take c) s).channel? c = some ch.take :=
    channel_updateChannel_self s c _ ch Channel.take_params found
  refine ⟨?offered, fun w rest outbound => ?oldest, fun outbound => ?waits, fun c' other => ⟨?_, ?_⟩⟩
  case offered => exact channel_updateChannel_self s c _ ch (Channel.offer_params v) found
  case oldest => rw [taken, Channel.take, outbound]
  case waits => rw [taken, Channel.take, outbound]
  · exact channel_updateChannel_ne s c c' _ (Channel.offer_params v) other
  · exact channel_updateChannel_ne s c c' _ Channel.take_params other

end Sys2Proof.Machine
end

section
/-! PROOFS. The step outside an instruction: the wait point, the steps before and during boot, and runs of several steps. -/

namespace Sys2Proof.Machine

/-! ### The step by run state -/

section ByRunState
variable {s : State}

theorem step_reset (h : s.runState = .reset) : step s = stepReset s := by simp only [step, h]

theorem step_booting {n : Nat} (h : s.runState = .booting n) : step s = stepBoot n s := by simp only [step, h]

theorem step_waiting (h : s.runState = .waiting) : step s = stepWait s := by simp only [step, h]

theorem step_final (h : s.runState = .terminated ∨ s.runState = .bootFailed) : step s = .next s := by
  rcases h with h | h <;> simp only [step, h]

end ByRunState

/-! ### Runs -/

theorem runsTo_zero (s : State) : RunsTo 0 s s := rfl

theorem runsTo_succ {k : Nat} {s t u : State} (first : step s = .next t) (others : RunsTo k t u) : RunsTo (k + 1) s u := by
  have coreStep : Sys2Proof.core.step s = .next t := first
  unfold RunsTo
  simp only [Host.Core.run, coreStep]
  exact others

/-- Settles O16: a final state is its own next state. -/
theorem finalStatesStay : Obligations.FinalStatesStay := by
  intro s k final
  induction k with
  | zero => exact runsTo_zero s
  | succ k ih => exact runsTo_succ (step_final final) ih

/-! ### The wait point (40_fetch_execute.md R127) -/

section Wait
variable {s : State} {m : EnvMove} {rest : List EnvMove}

@[simp] theorem waitMove_tick (s : State) : waitMove .tick s = { s with runState := .running } := rfl

theorem waitMove_of_ne (h : m ≠ .tick) (s : State) : waitMove m s = envMove m s := if_neg h

theorem step_waiting_nil (waiting : s.runState = .waiting) (irq : s.irqPending = false) (script : s.env = []) :
    step s = .next { s with runState := .running } := by
  rw [step_waiting waiting, stepWait, if_neg (by simp [irq])]
  split
  · rfl
  · next script' => exact absurd (script.symm.trans script') nofun

theorem step_waiting_cons (waiting : s.runState = .waiting) (irq : s.irqPending = false) (script : s.env = m :: rest) :
    step s = .next (waitMove m { s with env := rest }) := by
  rw [step_waiting waiting, stepWait, if_neg (by simp [irq])]
  split
  · next script' => exact absurd (script.symm.trans script') nofun
  · next script' => cases script.symm.trans script'; rfl

theorem step_pending_nil (waiting : s.runState = .waiting) (irq : s.irqPending = true) (script : s.env = []) :
    step s = .next { s with runState := .terminated } := by
  rw [step_waiting waiting, stepWait, if_pos irq]
  split
  · rfl
  · next script' => exact absurd (script.symm.trans script') nofun

theorem step_pending_cons (waiting : s.runState = .waiting) (irq : s.irqPending = true) (script : s.env = m :: rest) :
    step s = .next (if s.irqPassed < Config.irqLatency
      then waitMove m { s with env := rest, irqPassed := s.irqPassed + 1 } else { s with runState := .terminated }) := by
  rw [step_waiting waiting, stepWait, if_pos irq, apply_ite Host.Outcome.next]
  split
  · next script' => exact absurd (script.symm.trans script') nofun
  · next script' => cases script.symm.trans script'; rfl

end Wait

/-- Settles O18: the four ways the wait point can go on without an event being passed. -/
theorem tickOrInterruptAtTheWaitPoint : Obligations.TickOrInterruptAtTheWaitPoint := by
  intro s waiting
  refine ⟨step_waiting_nil waiting, fun irq rest script => ?tick, fun irq m rest script other => ⟨?move, ?stays⟩,
    step_pending_nil waiting⟩
  case tick => rw [step_waiting_cons waiting irq script, waitMove_tick]
  case move => rw [step_waiting_cons waiting irq script, waitMove_of_ne other]
  case stays => rw [envMove_runState]; exact waiting

/-- Settles O19: the event is made as at any wait point and counted; at the bound the other branch is left. -/
theorem pendingInterruptIsTakenInTheEnd : Obligations.PendingInterruptIsTakenInTheEnd := by
  intro s m rest waiting irq script
  have answer := step_pending_cons waiting irq script
  refine ⟨fun tick => ?_, fun other => ?_, fun bound => ?_⟩
  · rw [answer, tick, waitMove_tick]
  · rw [answer, waitMove_of_ne other]
  · rw [answer, if_neg (Nat.not_lt.2 bound)]

/-- Within `n` steps the run ends with registers, memory and outputs as in `s`. -/
def RunEndsWithin (n : Nat) (s : State) : Prop :=
  ∃ k t, k ≤ n ∧ RunsTo k s t ∧ t.runState = .terminated ∧ t.regs = s.regs ∧ t.mem = s.mem ∧ NoReport s t ∧ t.sent = s.sent

theorem runEndsWithin_of_step (n : Nat) {s : State} (ends : step s = .next { s with runState := .terminated }) :
    RunEndsWithin (n + 1) s :=
  ⟨1, _, Nat.le_add_left 1 n, runsTo_succ ends (runsTo_zero _), rfl, rfl, rfl, rfl, rfl⟩

theorem runEndsWithin_of_envMove {n : Nat} {m : EnvMove} {s u : State} (answer : step s = .next (envMove m u))
    (same : u = { s with env := u.env, irqPassed := u.irqPassed }) (ends : RunEndsWithin n (envMove m u)) :
    RunEndsWithin (n + 1) s := by
  obtain ⟨regs, mem, reports, -, sent, -⟩ := envMove_frame m u
  obtain ⟨k, t, short, run, final, regs', mem', reports', sent'⟩ := ends
  rw [same] at regs mem reports sent
  rw [same] at regs' mem' reports' sent'
  exact ⟨k + 1, t, Nat.succ_le_succ short, runsTo_succ answer run, final, regs'.trans regs, mem'.trans mem,
    reports'.trans reports, sent'.trans sent⟩

/-- Settles O20, by induction on the script: each of its moves either goes first, leaving the core at the wait point with the
interrupt pending and one move less, or the run ends there. -/
theorem withoutATickThePendingInterruptEndsTheRun : Obligations.WithoutATickThePendingInterruptEndsTheRun := by
  intro s waiting irq
  suffices ends : ∀ env, s.env = env → (∀ m ∈ env, m ≠ .tick) → RunEndsWithin (env.length + 1) s from ends s.env rfl
  intro env script noTick
  induction env generalizing s with
  | nil => exact runEndsWithin_of_step 0 (step_pending_nil waiting irq script)
  | cons m rest ih =>
    have answer := step_pending_cons waiting irq script
    by_cases below : s.irqPassed < Config.irqLatency
    case neg =>
      rw [if_neg below] at answer
      exact runEndsWithin_of_step _ answer
    case pos =>
      rw [if_pos below, waitMove_of_ne (noTick m List.mem_cons_self)] at answer
      refine runEndsWithin_of_envMove answer rfl (ih _ ?_ ?_ ?_ ?_)
      · rw [envMove_runState]; exact waiting
      · exact envMove_irqPending_of_pending m _ irq
      · exact envMove_env m _
      · exact fun m' hm' => noTick m' (List.mem_cons_of_mem m hm')

end Sys2Proof.Machine
end

section
/-! PROOFS. Boot of 70_reset_and_hazards.md, section 2: the steps before and during the copy, and where the copy ends. -/

namespace Sys2Proof.Machine

/-! ### The steps before and during boot -/

section Steps
variable {s : State} {m : EnvMove} {rest : List EnvMove} {n : Nat}

theorem step_reset_nil (reset : s.runState = .reset) (script : s.env = []) :
    step s = .next { s with runState := .booting 0 } := by
  rw [step_reset reset, stepReset]
  split
  · rfl
  · next script' => exact absurd (script.symm.trans script') nofun
  · next script' => exact absurd (script.symm.trans script') nofun

theorem step_reset_startBoot (reset : s.runState = .reset) (script : s.env = .startBoot :: rest) :
    step s = .next { s with runState := .booting 0, env := rest } := by
  rw [step_reset reset, stepReset]
  split
  · next script' => exact absurd (script.symm.trans script') nofun
  · next script' => cases script.symm.trans script'; rfl
  · next other script' => cases script.symm.trans script'; exact absurd rfl other

theorem step_reset_move (reset : s.runState = .reset) (script : s.env = m :: rest) (other : m ≠ .startBoot) :
    step s = .next (envMove m { s with env := rest }) := by
  rw [step_reset reset, stepReset]
  split
  · next script' => exact absurd (script.symm.trans script') nofun
  · next script' => cases script.symm.trans script'; exact absurd rfl other
  · next script' => cases script.symm.trans script'; rfl

theorem step_booting_nil (booting : s.runState = .booting n) (script : s.env = []) : step s = bootTurn n s := by
  rw [step_booting booting, stepBoot]
  split
  · rfl
  · next script' => exact absurd (script.symm.trans script') nofun

theorem step_booting_cons (booting : s.runState = .booting n) (script : s.env = m :: rest) :
    step s = if Config.bootYields n s.env.length then .next (envMove m { s with env := rest }) else bootTurn n s := by
  rw [step_booting booting, stepBoot]
  split
  · next script' => exact absurd (script.symm.trans script') nofun
  · next script' => cases script.symm.trans script'; rfl

/-! The turn of the boot sequencer (70_reset_and_hazards.md R273, R274). -/

theorem bootTurn_past (past : s.boot.image[n]? = none) :
    bootTurn n s = .next { s.setIp s.boot.start with runState := .running } := by
  simp only [bootTurn, bootLoad, past]

theorem bootTurn_byte {b : Byte} (byte : s.boot.image[n]? = some b) (inside : s.boot.offset.toNat + n < s.cfg.memSize) :
    bootTurn n s = .next { s.setByte (s.boot.offset.toNat + n) b with runState := .booting (n + 1) } := by
  have written : s.memWrite8 (n + s.boot.offset.toNat) b = some (s.setByte (s.boot.offset.toNat + n) b) := by
    rw [Nat.add_comm n, State.memWrite8, if_neg (Nat.not_le.2 inside)]
  simp only [bootTurn, bootLoad, byte, written]

theorem bootTurn_beyond {b : Byte} (byte : s.boot.image[n]? = some b)
    (beyond : s.cfg.memSize ≤ s.boot.offset.toNat + n) : bootTurn n s = .next { s with runState := .bootFailed } := by
  have refused : s.memWrite8 (n + s.boot.offset.toNat) b = none := by
    rw [Nat.add_comm n, State.memWrite8, if_pos beyond]
  simp only [bootTurn, bootLoad, byte, refused]

theorem bootTurn_sequencerMoves (n : Nat) (s : State) : SequencerMoves n s (bootTurn n s) :=
  ⟨bootTurn_past, fun _ byte => ⟨bootTurn_byte byte, bootTurn_beyond byte⟩⟩

end Steps

/-- Settles O22: the step looks at the script's first move, and leaves the rest to the boot sequencer. -/
theorem othersMoveBeforeAndDuringBoot : Obligations.OthersMoveBeforeAndDuringBoot := by
  refine fun s => ⟨fun reset => ⟨step_reset_nil reset, fun rest => step_reset_startBoot reset,
    fun m rest => step_reset_move reset⟩, fun n booting => ⟨fun script => ?_, fun m rest script => ?_⟩⟩
  · rw [step_booting_nil booting script]
    exact bootTurn_sequencerMoves n s
  · rw [step_booting_cons booting script]
    split
    · rfl
    · exact bootTurn_sequencerMoves n s

/-! ### What boot has done after `n` bytes -/

/-- `u` is `s` with the first `n` bytes of the image copied, all of which fitted, and with any moves of the other agents made;
without a script there were none. -/
structure BootCopied (s : State) (n : Nat) (u : State) : Prop where
  regs : u.regs = s.regs
  bytes : ∀ i b, i < n → s.boot.image[i]? = some b → u.byteAt (s.boot.offset.toNat + i) = b
  outside : SameMemoryOutside s.boot.offset.toNat n s u
  canonical : Memory.wf u.mem = true
  platform : SamePlatform s u
  sent : u.sent = s.sent
  reports : NoReport s u
  irqPending : s.irqPending = true → u.irqPending = true
  quiet : s.env = [] → u.env = [] ∧ u.channels = s.channels
  within : n ≤ s.boot.length
  fitted : n = 0 ∨ s.boot.offset.toNat + n ≤ s.cfg.memSize

namespace BootCopied
variable {s u : State} {n : Nat}

theorem zero (canonical : Memory.wf s.mem = true) : BootCopied s 0 s where
  regs := rfl
  bytes _ _ none := absurd none (Nat.not_lt_zero _)
  outside _ _ := rfl
  canonical := canonical
  platform := ⟨rfl, rfl, rfl⟩
  sent := rfl
  reports := rfl
  irqPending := id
  quiet script := ⟨script, rfl⟩
  within := Nat.zero_le _
  fitted := .inl rfl

theorem setRunState (h : BootCopied s n u) (r : RunState) : BootCopied s n { u with runState := r } :=
  { h with }

/-- A script with a move to come is not the empty one boot may have started with. -/
theorem setEnv (h : BootCopied s n u) {m : EnvMove} {rest : List EnvMove} (script : u.env = m :: rest) :
    BootCopied s n { u with env := rest } :=
  { h with quiet := fun none => absurd (script.symm.trans (h.quiet none).1) nofun }

theorem envMove (h : BootCopied s n u) {m : EnvMove} {rest : List EnvMove} (script : u.env = m :: rest) :
    BootCopied s n (envMove m { u with env := rest }) := by
  obtain ⟨regs, mem, reports, -, sent, cfg, boot, params⟩ := envMove_frame m { u with env := rest }
  obtain ⟨cfg', boot', params'⟩ := h.platform
  have byteAt (a : Nat) : (Machine.envMove m { u with env := rest }).byteAt a = u.byteAt a :=
    congrArg (Memory.read · a) mem
  exact {
    regs := regs.trans h.regs
    bytes := fun i b below byte => (byteAt _).trans (h.bytes i b below byte)
    outside := fun a away => (byteAt a).trans (h.outside a away)
    canonical := (congrArg Memory.wf mem).trans h.canonical
    platform := ⟨cfg.trans cfg', boot.trans boot', params.trans params'⟩
    sent := sent.trans h.sent
    reports := reports.trans h.reports
    irqPending := fun before => envMove_irqPending_of_pending m _ (h.irqPending before)
    quiet := fun none => absurd (script.symm.trans (h.quiet none).1) nofun
    within := h.within
    fitted := h.fitted }

theorem setByte (h : BootCopied s n u) {b : Byte} (byte : s.boot.image[n]? = some b)
    (inside : s.boot.offset.toNat + n < s.cfg.memSize) :
    BootCopied s (n + 1) (u.setByte (s.boot.offset.toNat + n) b) :=
  { h with
    bytes := fun i b' below byte' => by
      rw [byteAt_setByte u _ _ b h.canonical]
      split
      · next here =>
        obtain rfl : i = n := by omega
        exact Option.some.inj (byte.symm.trans byte')
      · exact h.bytes i b' (by omega) byte'
    outside := fun a away => by
      rw [byteAt_setByte u _ a b h.canonical, if_neg (by omega)]
      exact h.outside a (by omega)
    canonical := wf_setByte u _ b h.canonical
    within := (List.getElem?_eq_some_iff.1 byte).1
    fitted := .inr inside }

/-! The turn of the boot sequencer, in terms of the state boot started from. -/

theorem turn_past (h : BootCopied s n u) (past : s.boot.image[n]? = none) :
    bootTurn n u = .next { u.setIp s.boot.start with runState := .running } := by
  obtain ⟨-, boot, -⟩ := h.platform
  rw [bootTurn_past (by rw [boot]; exact past), boot]

theorem turn_byte (h : BootCopied s n u) {b : Byte} (byte : s.boot.image[n]? = some b)
    (inside : s.boot.offset.toNat + n < s.cfg.memSize) :
    bootTurn n u = .next { u.setByte (s.boot.offset.toNat + n) b with runState := .booting (n + 1) } := by
  obtain ⟨cfg, boot, -⟩ := h.platform
  rw [bootTurn_byte (by rw [boot]; exact byte) (by rw [cfg, boot]; exact inside), boot]

theorem turn_beyond (h : BootCopied s n u) {b : Byte} (byte : s.boot.image[n]? = some b)
    (beyond : s.cfg.memSize ≤ s.boot.offset.toNat + n) : bootTurn n u = .next { u with runState := .bootFailed } := by
  obtain ⟨cfg, boot, -⟩ := h.platform
  exact bootTurn_beyond (by rw [boot]; exact byte) (by rw [cfg, boot]; exact beyond)

theorem outside_image (h : BootCopied s n u) : SameMemoryOutside s.boot.offset.toNat s.boot.length s u := by
  intro a away
  have within := h.within
  exact h.outside a (by omega)

end BootCopied

/-! ### Where the copy stops -/

/-- From `u` the machine comes to the turn of the boot sequencer with which the copy stops, after `n` bytes: past the image,
or at a byte that does not fit. With `done` steps of boot made before, all of boot takes two steps and one for each byte, and
one for each move of the script. -/
def BootStops (s : State) (done : Nat) (u : State) : Prop :=
  ∃ k n v t, k + done ≤ n + 2 + u.env.length ∧ (u.env = [] → k + done = n + 2) ∧ RunsTo k u t ∧ BootCopied s n v ∧
    bootTurn n v = .next t ∧ (s.boot.image[n]? = none ∨ s.cfg.memSize ≤ s.boot.offset.toNat + n)

section Stops
variable {s u : State} {n : Nat}

theorem bootStops_of_step {done done' : Nat} {u' : State} (answer : step u = .next u')
    (cost : done + 1 + u'.env.length ≤ done' + u.env.length) (quiet : u.env = [] → u'.env = [] ∧ done' = done + 1)
    (stops : BootStops s done' u') : BootStops s done u := by
  obtain ⟨k, n, v, t, short, count, run, copied, turn, stop⟩ := stops
  refine ⟨k + 1, n, v, t, by omega, fun none => ?_, runsTo_succ answer run, copied, turn, stop⟩
  obtain ⟨none', one⟩ := quiet none
  have whole := count none'
  omega

/-- The sequencer's turn at byte `n` stops the copy, or copies the byte. -/
theorem bootStops_of_turn (copied : BootCopied s n u) (answer : step u = bootTurn n u)
    (next : ∀ u', BootCopied s (n + 1) u' → u'.runState = .booting (n + 1) → u'.env = u.env → BootStops s (n + 2) u') :
    BootStops s (n + 1) u := by
  have stopsNow {t : State} (turn : bootTurn n u = .next t)
      (stop : s.boot.image[n]? = none ∨ s.cfg.memSize ≤ s.boot.offset.toNat + n) : BootStops s (n + 1) u :=
    ⟨1, n, u, t, by omega, fun _ => by omega, runsTo_succ (answer.trans turn) (runsTo_zero t), copied, turn, stop⟩
  cases byte : s.boot.image[n]? with
  | none => exact stopsNow (copied.turn_past byte) (.inl byte)
  | some b =>
    by_cases inside : s.boot.offset.toNat + n < s.cfg.memSize
    case neg => exact stopsNow (copied.turn_beyond byte (Nat.not_lt.1 inside)) (.inr (Nat.not_lt.1 inside))
    case pos =>
      have more := next _ ((copied.setByte byte inside).setRunState _) rfl rfl
      exact bootStops_of_step (answer.trans (copied.turn_byte byte inside)) (Nat.le_refl _) (fun none => ⟨none, rfl⟩) more

/-- The copy stops: each step makes a move of the script or leaves a byte less to copy. -/
theorem bootStops_of_booting {s u : State} {n : Nat} (copied : BootCopied s n u) (booting : u.runState = .booting n) :
    BootStops s (n + 1) u := by
  have turn (answer : step u = bootTurn n u) : BootStops s (n + 1) u :=
    bootStops_of_turn copied answer fun u' copied' booting' script' => bootStops_of_booting copied' booting'
  cases script : u.env with
  | nil => exact turn (step_booting_nil booting script)
  | cons m rest =>
    have answer := step_booting_cons booting script
    split at answer
    · refine bootStops_of_step (done' := n + 1) answer (by simp [script]; omega) (by simp [script]) ?_
      exact bootStops_of_booting (copied.envMove script) (by simpa using booting)
    · exact turn answer
termination_by s.boot.length - n + u.env.length
decreasing_by
  · have within := copied'.within
    rw [script']
    omega
  · simp [script]

/-- The moves before boot leave the machine as reset left it, but for channels and interrupt. -/
theorem bootStops_of_reset (copied : BootCopied s 0 u) (reset : u.runState = .reset) : BootStops s 0 u := by
  generalize script : u.env = env
  induction env generalizing u with
  | nil =>
    refine bootStops_of_step (done' := 1) (step_reset_nil reset script) (by simp) (fun none => ⟨none, rfl⟩) ?_
    exact bootStops_of_booting (copied.setRunState _) rfl
  | cons m rest ih =>
    by_cases start : m = .startBoot
    case pos =>
      subst start
      refine bootStops_of_step (done' := 1) (step_reset_startBoot reset script) (by simp [script]) (by simp [script]) ?_
      exact bootStops_of_booting ((copied.setEnv script).setRunState _) rfl
    case neg =>
      refine bootStops_of_step (done' := 0) (step_reset_move reset script start) (by simp [script]; omega) (by simp [script]) ?_
      exact ih (copied.envMove script) (by simpa using reset) (by simp)

end Stops

/-- Settles O30: where the image fits the copy can only stop past its end, and the sequencer's turn there starts the run. -/
theorem bootCopiesTheImage : Obligations.BootCopiesTheImage := by
  intro s hs reset fits
  obtain ⟨k, n, v, t, short, count, run, copied, turn, stop⟩ := bootStops_of_reset (.zero hs.memCanonical) reset
  have all : n = s.boot.length := by
    have within := copied.within
    rcases stop with past | beyond
    · exact Nat.le_antisymm within (List.getElem?_eq_none_iff.1 past)
    · omega
  obtain rfl : t = { v.setIp s.boot.start with runState := .running } := by
    have past : s.boot.image[n]? = none := List.getElem?_eq_none all.ge
    cases turn.symm.trans (copied.turn_past past)
    rfl
  have reg_eq (r : Reg) : v.reg r = s.reg r := by simp [State.reg, copied.regs]
  refine ⟨k, _, by omega, run, rfl, ip_setIp v _, fun r other => (reg_setIp_ne v _ other).trans (reg_eq r),
    fun i b byte => copied.bytes i b ?_ byte, copied.outside_image, copied.platform, copied.sent, copied.reports,
    copied.irqPending, fun none => ⟨?_, (copied.quiet none).2, copied.sent⟩⟩
  · exact all ▸ (List.getElem?_eq_some_iff.1 byte).1
  · rw [← all]; exact count none

/-- Settles O31: were the whole image copied, it would have fitted; so the copy stops at a byte beyond memory, and the
sequencer's turn there is the failure. -/
theorem bootFailsWhenTheImageDoesNotFit : Obligations.BootFailsWhenTheImageDoesNotFit := by
  intro s hs reset nonempty tooLong
  obtain ⟨k, n, v, t, short, count, run, copied, turn, stop⟩ := bootStops_of_reset (.zero hs.memCanonical) reset
  have part : n < s.boot.length := by
    have within := copied.within
    have fitted := copied.fitted
    omega
  have byte : s.boot.image[n]? = some s.boot.image[n] := List.getElem?_eq_getElem part
  have beyond : s.cfg.memSize ≤ s.boot.offset.toNat + n := stop.resolve_left (by simp [byte])
  obtain rfl : t = { v with runState := .bootFailed } := by
    cases turn.symm.trans (copied.turn_beyond byte beyond)
    rfl
  exact ⟨k, _, by omega, run, rfl, copied.regs, fun i b byte inside => copied.bytes i b (by omega) byte,
    copied.outside_image, copied.platform, copied.sent, copied.reports,
    fun none => ⟨(copied.quiet none).2, copied.sent⟩⟩

end Sys2Proof.Machine
end

section
/-! PROOFS. LOAD and SET of 41_load_store_set.md, LJUMP of 43_jump.md and SHR of 44_alu.md. -/

namespace Sys2Proof.Machine

/-! ### The two ends of an instruction that answers at once -/

theorem retire_setReg_spec (a : Reg) (v : Word) (w : Nat) (s : State) :
    ∃ t, retire w (s.setReg a v) = .next t ∧ RegWritten a v w s t ∧ OnlyRegisters s t :=
  ⟨retired w (s.setReg a v), rfl, regWritten_retired a v w s s rfl, onlyRegisters_retired w s _ rfl⟩

theorem takeFault_spec (op : Option Nibble) (f : InstrFault) (w : Nat) (s : State) :
    ∃ t, takeFault op f w s = .next t ∧ Faulted op f w s t :=
  ⟨faulted op f w s, rfl, faulted_spec op f w s⟩

/-! ### LOAD and SET -/

/-- Where the access of LOAD and STORE lies: in bounds for the word form, in bounds for the byte form, or out of bounds. -/
theorem access_cases (b : Reg) (c : Nibble) (s : State) :
    (c = 0 ∧ (s.reg b).toNat + 1 < s.cfg.memSize) ∨ (c ≠ 0 ∧ (s.reg b).toNat < s.cfg.memSize) ∨
    (c = 0 ∧ s.cfg.memSize ≤ (s.reg b).toNat + 1) ∨ (c ≠ 0 ∧ s.cfg.memSize ≤ (s.reg b).toNat) := by
  by_cases word : c = 0
  · rcases Nat.lt_or_ge ((s.reg b).toNat + 1) s.cfg.memSize with inside | outside
    · exact .inl ⟨word, inside⟩
    · exact .inr (.inr (.inl ⟨word, outside⟩))
  · rcases Nat.lt_or_ge (s.reg b).toNat s.cfg.memSize with inside | outside
    · exact .inr (.inl ⟨word, inside⟩)
    · exact .inr (.inr (.inr ⟨word, outside⟩))

section Load
variable (a b : Reg) {c : Nibble} {s : State}

theorem exec_load_word (inside : (s.reg b).toNat + 1 < s.cfg.memSize) :
    exec (.load a b 0) s =
      retire 2 (s.setReg a (wordOf (s.byteAt (s.reg b).toNat) (s.byteAt ((s.reg b).toNat + 1)))) :=
  execLoad_word a b s inside

theorem exec_load_byte (byteForm : c ≠ 0) (inside : (s.reg b).toNat < s.cfg.memSize) :
    exec (.load a b c) s = retire 2 (s.setReg a (wordOf (highByte (s.reg a)) (s.byteAt (s.reg b).toNat))) :=
  execLoad_byte a b s byteForm inside

theorem exec_load_fault
    (outside : (c = 0 ∧ s.cfg.memSize ≤ (s.reg b).toNat + 1) ∨ (c ≠ 0 ∧ s.cfg.memSize ≤ (s.reg b).toNat)) :
    exec (.load a b c) s = takeFault (some 0) (.segfault (s.reg b) 0) 2 s := by
  rcases outside with ⟨rfl, outside⟩ | ⟨byteForm, outside⟩
  · exact execLoad_word_fault a b s outside
  · exact execLoad_byte_fault a b s byteForm outside

theorem exec_set_ok (imm : Word) (inside : s.ip.toNat + 2 < s.cfg.memSize) :
    exec (.set a imm) s = retire 3 (s.setReg a imm) :=
  execSet_ok a s imm inside

theorem exec_set_fault (imm : Word) (outside : s.cfg.memSize ≤ s.ip.toNat + 2) :
    exec (.set a imm) s = takeFault (some 2) (.segfault s.ip 1) 3 s :=
  execSet_fault a s imm outside

end Load

/-- Settles O32: in bounds each form retires with its one register written. -/
theorem loadResult : Obligations.LoadResult := by
  intro a b c s
  constructor
  · rintro rfl inside
    rw [exec_load_word a b inside]
    exact retire_setReg_spec ..
  · intro byteForm inside
    rw [exec_load_byte a b byteForm inside]
    exact retire_setReg_spec ..

/-- Settles O33: out of bounds both forms take the fault, which leaves every register. -/
theorem loadOutOfBoundsFaults : Obligations.LoadOutOfBoundsFaults := by
  intro a b c s outside
  rw [exec_load_fault a b outside]
  exact takeFault_spec ..

/-- Settles O35: in bounds SET retires with its operand written. -/
theorem setResult : Obligations.SetResult := by
  intro a imm s inside
  rw [exec_set_ok a imm inside]
  exact retire_setReg_spec ..

/-- Settles O37: out of bounds SET takes the fault at offset 1. -/
theorem setOutOfBoundsFaults : Obligations.SetOutOfBoundsFaults := by
  intro a imm s outside
  rw [exec_set_fault a imm outside]
  exact takeFault_spec ..

/-- Settles O59: on each side of the bound the byte forms have one answer, in which the flag does not occur. -/
theorem nonzeroSizeFlagsAreEqual : Obligations.NonzeroSizeFlagsAreEqual := by
  intro a b c c' s hc hc'
  rcases Nat.lt_or_ge (s.reg b).toNat s.cfg.memSize with inside | outside
  · rw [exec_load_byte a b hc inside, exec_load_byte a b hc' inside, exec_store_byte a b hc inside,
      exec_store_byte a b hc' inside]
    exact ⟨rfl, rfl⟩
  · rw [exec_load_fault a b (.inr ⟨hc, outside⟩), exec_load_fault a b (.inr ⟨hc', outside⟩),
      exec_store_fault a b (.inr ⟨hc, outside⟩), exec_store_fault a b (.inr ⟨hc', outside⟩)]
    exact ⟨rfl, rfl⟩

/-! ### LJUMP -/

theorem lessUnsigned_eq_true (x y : Word) : lessUnsigned x y = true ↔ x.toNat < y.toNat := decide_eq_true_iff

theorem lessUnsigned_eq_false (x y : Word) : lessUnsigned x y = false ↔ ¬x.toNat < y.toNat := decide_eq_false_iff_not

/-- Settles O47: LJUMP is the conditional jump on the order of the two numbers. -/
theorem ljumpResult : Obligations.LjumpResult := by
  intro a b c s
  obtain ⟨t, answers, frame, others, target, advanced⟩ := jumpIf_spec (lessUnsigned (s.reg a) (s.reg b)) c s
  rw [lessUnsigned_eq_true] at target
  rw [lessUnsigned_eq_false] at advanced
  exact ⟨t, answers, frame, others, target, advanced⟩

/-! ### SHR -/

theorem aluShr_eq_ofNat (x n : Word) :
    aluShr x n = if n.toNat ≥ 16 then 0 else BitVec.ofNat 16 (x.toNat / 2 ^ n.toNat) := by
  have shifted : x >>> n.toNat = BitVec.ofNat 16 (x.toNat / 2 ^ n.toNat) := by
    have small : x.toNat / 2 ^ n.toNat < 2 ^ 16 := (Nat.div_le_self _ _).trans_lt x.isLt
    apply BitVec.eq_of_toNat_eq
    rw [BitVec.toNat_ushiftRight, Nat.shiftRight_eq_div_pow, BitVec.toNat_ofNat, Nat.mod_eq_of_lt small]
  rw [aluShr, shifted]

/-- Settles O52: below 16 a logical right shift is the floor of the division; from 16 up both sides are 0. -/
theorem shrResult : Obligations.ShrResult := by
  intro a b c s
  rw [← aluShr_eq_ofNat]
  exact ⟨decode_encode_of_length_eq_two (.shr a b c) rfl, aluResult_spec a _ s⟩

end Sys2Proof.Machine
end

section
/-! PROOFS. The step of a running core (40_fetch_execute.md, sections 2 and 4): what the bytes at the instruction pointer make
it do, and the one way it stops the model. -/

namespace Sys2Proof.Machine

/-! ### The third byte matters to SET only (30_encoding.md R94) -/

theorem decodeInsn_set {insn : Word} (opcode : (opcodeField insn).toNat = 2) (third : Byte) :
    decodeInsn insn third = .set (arg1Field insn) (wordOf (lowByte insn) third) := by
  simp only [decodeInsn, opcode]

theorem decodeInsn_third {insn : Word} (opcode : (opcodeField insn).toNat ≠ 2) (x y : Byte) :
    decodeInsn insn x = decodeInsn insn y := by
  unfold decodeInsn
  split
  case h_3 set => exact absurd set opcode
  all_goals rfl

theorem exec_decodeInsn_third (insn : Word) {s : State} (outside : s.cfg.memSize ≤ s.ip.toNat + 2) (x y : Byte) :
    exec (decodeInsn insn x) s = exec (decodeInsn insn y) s := by
  by_cases opcode : (opcodeField insn).toNat = 2
  · rw [decodeInsn_set opcode, decodeInsn_set opcode, exec_set_fault _ _ outside, exec_set_fault _ _ outside]
  · rw [decodeInsn_third opcode x y]

/-- Settles O9: the step decodes the two bytes fetched and the third, which is the one in memory or of no effect. -/
theorem stepRunsTheDecodedInstruction : Obligations.StepRunsTheDecodedInstruction := by
  intro s i running inside decoded _
  rw [decode_three] at decoded
  obtain rfl := Except.ok.inj decoded
  rw [step_running s running inside]
  rcases Nat.lt_or_ge (s.ip.toNat + 2) s.cfg.memSize with third | beyond
  · rw [thirdByte_eq s third]
  · exact exec_decodeInsn_third _ beyond _ _

/-- Settles O10: a failed fetch takes the fault with the default width. -/
theorem failedFetchIsReportedAndSkipped : Obligations.FailedFetchIsReportedAndSkipped := by
  intro s running outside
  rw [step_running_fault s running outside]
  exact ⟨_, rfl, faulted_spec .., ip_faulted .., rfl⟩

/-- Settles O36: opcode 2 decodes to a SET of the second and third byte. -/
theorem setLoadsTheBytesAfterItsOpcode : Obligations.SetLoadsTheBytesAfterItsOpcode := by
  intro s running inside opcode
  rw [step_running s running (Nat.lt_of_succ_lt inside), decodeInsn_set (by rw [opcodeField_wordOf]; exact opcode),
    thirdByte_eq s inside, arg1Field_wordOf, lowByte_wordOf]
  exact setResult _ _ s inside

/-! ### What stops the model (42_bus.md R163) -/

/-- The bus driver register of WBUS, SBUS and RBUS. -/
def driver (i : Instr) : Option Reg :=
  match i with
  | .wbus a | .sbus a | .rbus a => some a
  | _ => none

theorem driver_decodeInsn (b0 b1 b2 : Byte) :
    driver (decodeInsn (wordOf b0 b1) b2) =
      if 3 ≤ (highNibble b0).toNat ∧ (highNibble b0).toNat ≤ 5 then some (lowNibble b0) else none := by
  simp only [decodeInsn, opcodeField_wordOf, arg1Field_wordOf, arg2Field_wordOf, arg3Field_wordOf, lowByte_wordOf]
  split
  case h_4 opcode | h_5 opcode | h_6 opcode => simp [driver, opcode]
  case h_16 =>
    have opcode : ¬((highNibble b0).toNat = 3 ∨ (highNibble b0).toNat = 4 ∨ (highNibble b0).toNat = 5) := by
      simp only [imp_false] at *
      omega
    rw [if_neg (by omega)]; rfl
  all_goals next opcode => simp [driver, opcode]

/-- Settles O43: the index is looked at first. -/
theorem badDataRegisterStops : Obligations.BadDataRegisterStops := by
  intro a s bad
  have none : dataReg (lowByte (s.reg a)) = none := dataReg_none _ bad
  exact ⟨by simp only [exec, execWbus, none], by simp only [exec, execSbus, none], by simp only [exec, execRbus, none]⟩

section Stop
variable {i : Instr} {a : Reg} {s : State}

theorem exec_bad_data_register (bus : driver i = some a) (bad : 16 ≤ (lowByte (s.reg a)).toNat) :
    exec i s = .fault (.regIndexOutOfRange (lowByte (s.reg a))) := by
  obtain ⟨wbus, sbus, rbus⟩ := badDataRegisterStops a s bad
  cases i <;> cases bus
  case wbus => exact wbus
  case sbus => exact sbus
  case rbus => exact rbus

theorem exec_next_of_data_register (bus : driver i = some a) (good : (lowByte (s.reg a)).toNat < 16) :
    ∃ t, exec i s = .next t := by
  obtain ⟨k, named⟩ : ∃ k, dataReg (lowByte (s.reg a)) = some k := by
    rcases dataReg_cases (lowByte (s.reg a)) with ⟨bad, -⟩ | ⟨-, named⟩
    · exact absurd good (Nat.not_lt.2 bad)
    · exact named
  cases i <;> cases bus
  case wbus => exact ⟨_, execWbus_eq a s k named⟩
  case sbus =>
    rw [exec, execSbus_eq a s k named]
    split <;> exact ⟨_, rfl⟩
  case rbus =>
    rw [exec, execRbus_eq a s k named]
    split <;> exact ⟨_, rfl⟩

theorem exec_next_of_not_bus (notBus : driver i = none) : ∃ t, exec i s = .next t := by
  cases i
  case wbus | sbus | rbus => cases notBus
  case load =>
    rw [exec, execLoad]
    split <;> split <;> exact ⟨_, rfl⟩
  case store =>
    rw [exec, execStore]
    split <;> split <;> exact ⟨_, rfl⟩
  case set =>
    rw [exec, execSet]
    split <;> exact ⟨_, rfl⟩
  case ljump | ejump => exact ⟨_, (apply_ite Host.Outcome.next _ _ _).symm⟩
  all_goals exact ⟨_, rfl⟩

theorem exec_eq_fault_iff (i : Instr) (s : State) (f : Fault) :
    exec i s = .fault f ↔
      ∃ a, driver i = some a ∧ 16 ≤ (lowByte (s.reg a)).toNat ∧ f = .regIndexOutOfRange (lowByte (s.reg a)) := by
  constructor
  · intro stops
    have noNext : ¬∃ t, exec i s = .next t := fun ⟨t, answers⟩ => nomatch answers.symm.trans stops
    cases bus : driver i with
    | none => exact absurd (exec_next_of_not_bus bus) noNext
    | some a =>
      rcases Nat.lt_or_ge (lowByte (s.reg a)).toNat 16 with good | bad
      · exact absurd (exec_next_of_data_register bus good) noNext
      · exact ⟨a, rfl, bad, (Host.Outcome.fault.inj ((exec_bad_data_register bus bad).symm.trans stops)).symm⟩
  · rintro ⟨a, bus, bad, rfl⟩
    exact exec_bad_data_register bus bad

theorem exec_ne_refused (i : Instr) (s : State) (r : Refusal) : exec i s ≠ .refused r := by
  intro refuses
  have shape := exec_shape s i
  rw [refuses] at shape
  cases shape

theorem step_ne_refused (s : State) (r : Refusal) : step s ≠ .refused r := by
  intro refuses
  have shape := step_shape s
  rw [refuses] at shape
  cases shape with
  | instruction i _ _ _ _ ends => exact exec_ne_refused i s r ends.symm

theorem step_eq_fault_iff (s : State) (f : Fault) :
    step s = .fault f ↔ s.runState = .running ∧ s.ip.toNat + 1 < s.cfg.memSize ∧
      exec (decodeInsn (wordOf (s.byteAt s.ip.toNat) (s.byteAt (s.ip.toNat + 1))) (thirdByte s)) s = .fault f := by
  constructor
  · intro stops
    have shape := step_shape s
    rw [stops] at shape
    cases shape with
    | instruction i _ running inside decoded ends => exact ⟨running, inside, decoded ▸ ends.symm⟩
  · rintro ⟨running, inside, stops⟩
    rw [step_running s running inside, stops]

end Stop

/-- Settles O11: only `exec` stops the model, only on a bus instruction, and the first byte says whether it is one and names
its driver register. -/
theorem onlyABadDataRegisterStopsTheMachine : Obligations.OnlyABadDataRegisterStopsTheMachine := by
  refine fun s => ⟨step_ne_refused s, fun f => ?_⟩
  simp only [step_eq_fault_iff, exec_eq_fault_iff, driver_decodeInsn, Option.ite_none_right_eq_some, Option.some.injEq]
  constructor
  · rintro ⟨running, inside, a, ⟨⟨low, high⟩, rfl⟩, bad, names⟩
    exact ⟨running, inside, low, high, bad, names⟩
  · rintro ⟨running, inside, low, high, bad, names⟩
    exact ⟨running, inside, _, ⟨⟨low, high⟩, rfl⟩, bad, names⟩

end Sys2Proof.Machine
end

section
/-! PROOFS. WBUS, SBUS and RBUS of 42_bus.md: at once, suspended, and at the end of a suspension. -/

namespace Sys2Proof.Machine

theorem dataReg_of_lowByte {d : Word} {k : Reg} (h : lowByte d = byteOf 0 k) : dataReg (lowByte d) = some k := by
  rw [h, dataReg_byteOf]

/-! ### What the end of a bus instruction leaves, whenever it comes -/

section Ends
variable (s : State) (c : Byte) (ch : Channel)

theorem retired_sendWord_spec (v : Word) (found : s.channel? c = some ch) :
    OnlyAdvanced 1 s (retired 1 (sendWord c v s)) ∧ SentOn c ch v s (retired 1 (sendWord c v s)) ∧
    SameMemory s (retired 1 (sendWord c v s)) ∧ SamePlatform s (retired 1 (sendWord c v s)) ∧
    SameOutside s (retired 1 (sendWord c v s)) ∧ NoReport s (retired 1 (sendWord c v s)) :=
  ⟨onlyAdvanced_retired 1 rfl, sentOn_sendWord c v s ch found, fun _ => rfl,
    samePlatform_updateChannel s c _ (Channel.accept_params v), ⟨rfl, rfl, rfl⟩, rfl⟩

/-- The state after RBUS has received `v` from channel `c` into register `k`. -/
def received (c : Byte) (k : Reg) (v : Word) (s : State) : State := (s.updateChannel c Channel.deliver).setReg k v

theorem retired_received_spec (k : Reg) (v : Word) (rest : List Word) (found : s.channel? c = some ch)
    (word : ch.inbound = v :: rest) :
    RegWritten k v 1 s (retired 1 (received c k v s)) ∧ ReceivedOn c ch rest s (retired 1 (received c k v s)) ∧
    SameMemory s (retired 1 (received c k v s)) ∧ SamePlatform s (retired 1 (received c k v s)) ∧
    SameOutside s (retired 1 (received c k v s)) ∧ NoReport s (retired 1 (received c k v s)) :=
  ⟨regWritten_retired k v 1 s _ rfl, receivedOn_deliver c s ch v rest found word, fun _ => rfl,
    samePlatform_updateChannel s c _ Channel.deliver_params, ⟨rfl, rfl, rfl⟩, rfl⟩

end Ends

/-! ### At once -/

section AtOnce
variable {a k : Reg} {s : State} {ch : Channel}

theorem exec_wbus (named : lowByte (s.reg a) = byteOf 0 k) :
    exec (.wbus a) s = retire 1 ((whichAsked s).setReg k (whichWord (busWhich s))) :=
  execWbus_eq a s k (dataReg_of_lowByte named)

theorem exec_sbus_sends (named : lowByte (s.reg a) = byteOf 0 k) (found : s.channel? (highByte (s.reg a)) = some ch)
    (accepts : ch.Accepts) : exec (.sbus a) s = retire 1 (sendWord (highByte (s.reg a)) (s.reg k) s) := by
  rw [exec, execSbus_eq a s k (dataReg_of_lowByte named), busSend_done s _ _ ch found ((canAccept_iff ch).2 accepts)]

theorem exec_sbus_suspends (named : lowByte (s.reg a) = byteOf 0 k) (found : s.channel? (highByte (s.reg a)) = some ch)
    (full : ¬ch.Accepts) : exec (.sbus a) s = .next (suspend (.suspendedSend (highByte (s.reg a)) (s.reg k)) s) := by
  rw [exec, execSbus_eq a s k (dataReg_of_lowByte named), busSend_blocked s _ _ ch found ((canAccept_eq_false ch).2 full)]

theorem exec_sbus_unknown (named : lowByte (s.reg a) = byteOf 0 k) (unknown : s.channel? (highByte (s.reg a)) = none) :
    exec (.sbus a) s = takeFault (some 4) (.invalidBusAddress (highByte (s.reg a))) 1 s := by
  rw [exec, execSbus_eq a s k (dataReg_of_lowByte named), busSend_unknown s _ _ unknown]

theorem exec_rbus_receives {v : Word} {rest : List Word} (named : lowByte (s.reg a) = byteOf 0 k)
    (found : s.channel? (highByte (s.reg a)) = some ch) (word : ch.inbound = v :: rest) :
    exec (.rbus a) s = retire 1 (received (highByte (s.reg a)) k v s) := by
  rw [exec, execRbus_eq a s k (dataReg_of_lowByte named), busRecv_done s _ ch v rest found word, received]

theorem exec_rbus_suspends (named : lowByte (s.reg a) = byteOf 0 k) (found : s.channel? (highByte (s.reg a)) = some ch)
    (empty : ch.inbound = []) : exec (.rbus a) s = .next (suspend (.suspendedRecv (highByte (s.reg a)) k) s) := by
  rw [exec, execRbus_eq a s k (dataReg_of_lowByte named), busRecv_blocked s _ ch found empty]

theorem exec_rbus_unknown (named : lowByte (s.reg a) = byteOf 0 k) (unknown : s.channel? (highByte (s.reg a)) = none) :
    exec (.rbus a) s = takeFault (some 5) (.invalidBusAddress (highByte (s.reg a))) 1 s := by
  rw [exec, execRbus_eq a s k (dataReg_of_lowByte named), busRecv_unknown s _ unknown]

end AtOnce

/-- R162, R165: the word WBUS writes. -/
theorem whichWord_spec (s : State) :
    ((∀ ch ∈ s.channels, ch.inbound = []) → whichWord (busWhich s) = 0x0100) ∧
    ((∃ ch ∈ s.channels, ch.inbound ≠ []) →
      ∃ ch ∈ s.channels, ch.inbound ≠ [] ∧ whichWord (busWhich s) = wordOf 0 ch.params.addr) := by
  rcases busWhich_cases s with ⟨noData, empty⟩ | ⟨c, picked, ch, mem, ready, addr⟩
  · rw [noData]
    exact ⟨fun _ => rfl, fun ⟨ch, mem, ready⟩ => absurd (empty ch mem) ready⟩
  · rw [picked]
    exact ⟨fun empty => absurd (empty ch mem) ready, fun _ => ⟨ch, mem, ready, addr ▸ rfl⟩⟩

/-- Settles O38: WBUS retires with the word written and only the counter of the free value moved. -/
theorem wbusResult : Obligations.WbusResult := by
  intro a k s named
  obtain ⟨empty, ready⟩ := whichWord_spec s
  exact ⟨_, whichWord (busWhich s), exec_wbus named, regWritten_retired k _ 1 s (whichAsked s) rfl, empty, ready,
    fun _ => rfl, samePlatform_rfl rfl rfl rfl, ⟨rfl, rfl⟩, ⟨rfl, rfl, rfl⟩, rfl, rfl⟩

/-- Settles O39: SBUS on an accepting channel retires with the word sent. -/
theorem sbusSendsTheDataRegister : Obligations.SbusSendsTheDataRegister := by
  intro a k s ch named found accepts
  obtain ⟨advanced, sent, memory, platform, outside, noReport⟩ := retired_sendWord_spec s _ ch (s.reg k) found
  exact ⟨_, exec_sbus_sends named found accepts, advanced, sent, memory, platform, outside, noReport, rfl, rfl⟩

/-- Settles O40: RBUS on a channel with inbound data retires with its oldest word received. -/
theorem rbusReceivesIntoTheDataRegister : Obligations.RbusReceivesIntoTheDataRegister := by
  intro a k s ch v rest named found word
  obtain ⟨written, got, memory, platform, outside, noReport⟩ := retired_received_spec s _ ch k v rest found word
  exact ⟨_, exec_rbus_receives named found word, written, got, memory, platform, outside, noReport, rfl, rfl⟩

/-- Settles O41: both take the fault, with their own opcode. -/
theorem unknownChannelFaults : Obligations.UnknownChannelFaults := by
  intro a k s named unknown
  rw [exec_sbus_unknown named unknown, exec_rbus_unknown named unknown]
  exact ⟨takeFault_spec .., takeFault_spec ..⟩

/-- Settles O42: a suspension is a change of the run state. -/
theorem blockedBusInstructionSuspends : Obligations.BlockedBusInstructionSuspends := by
  intro a k s ch named found
  exact ⟨fun full => ⟨_, exec_sbus_suspends named found full, rfl⟩,
    fun empty => ⟨_, exec_rbus_suspends named found empty, rfl⟩⟩

/-! ### Suspended (40_fetch_execute.md R128) -/

section Suspended
variable {s : State} {c : Byte} {ch : Channel}

theorem step_suspendedSend_ends {v : Word} (suspended : s.runState = .suspendedSend c v) (found : s.channel? c = some ch)
    (accepts : ch.Accepts) : step s = .next (retired 1 (sendWord c v s)) := by
  simp only [step, suspended, stepSuspendedSend, busSend_done s c v ch found ((canAccept_iff ch).2 accepts), retire]

theorem step_suspendedSend_held {v : Word} (suspended : s.runState = .suspendedSend c v) (found : s.channel? c = some ch)
    (full : ¬ch.Accepts) : step s = .next (letEnvMove s) := by
  simp only [step, suspended, stepSuspendedSend, busSend_blocked s c v ch found ((canAccept_eq_false ch).2 full)]

theorem step_suspendedRecv_ends {k : Reg} {v : Word} {rest : List Word} (suspended : s.runState = .suspendedRecv c k)
    (found : s.channel? c = some ch) (word : ch.inbound = v :: rest) :
    step s = .next (retired 1 (received c k v s)) := by
  simp only [step, suspended, stepSuspendedRecv, busRecv_done s c ch v rest found word, retire, received]

theorem step_suspendedRecv_held {k : Reg} (suspended : s.runState = .suspendedRecv c k) (found : s.channel? c = some ch)
    (empty : ch.inbound = []) : step s = .next (letEnvMove s) := by
  simp only [step, suspended, stepSuspendedRecv, busRecv_blocked s c ch found empty]

/-- The step of a suspended SBUS is its end or a move of another agent. -/
theorem step_suspendedSend_cases {v : Word} (suspended : s.runState = .suspendedSend c v) :
    step s = .next (retired 1 (sendWord c v s)) ∨ step s = .next (letEnvMove s) := by
  simp only [step, suspended, stepSuspendedSend]
  split
  · next done =>
    rcases busSend_cases c v s with ⟨-, send⟩ | ⟨_, -, -, send⟩ | ⟨_, -, -, send⟩ <;> cases send.symm.trans done
    exact .inl rfl
  · exact .inr rfl
  · exact .inr rfl

/-- The step of a suspended RBUS is its end or a move of another agent. -/
theorem step_suspendedRecv_cases {k : Reg} (suspended : s.runState = .suspendedRecv c k) :
    (∃ v, step s = .next (retired 1 (received c k v s))) ∨ step s = .next (letEnvMove s) := by
  simp only [step, suspended, stepSuspendedRecv]
  split
  · next done =>
    rcases busRecv_cases c s with ⟨-, recv⟩ | ⟨-, -, -, recv⟩ | ⟨_, _, _, -, -, recv⟩ <;> cases recv.symm.trans done
    exact .inl ⟨_, rfl⟩
  · exact .inr rfl
  · exact .inr rfl

end Suspended

/-- Settles O44: the end of a suspension leaves what the instruction would have left at once. -/
theorem suspendedBusInstructionCompletes : Obligations.SuspendedBusInstructionCompletes := by
  refine fun s c ch found => ⟨fun v suspended accepts => ?send, fun k v rest suspended word => ?recv⟩
  case send =>
    obtain ⟨advanced, sent, memory, platform, outside, noReport⟩ := retired_sendWord_spec s c ch v found
    exact ⟨_, step_suspendedSend_ends suspended found accepts, advanced, sent, memory, platform, outside, noReport, rfl⟩
  case recv =>
    obtain ⟨written, got, memory, platform, outside, noReport⟩ := retired_received_spec s c ch k v rest found word
    exact ⟨_, step_suspendedRecv_ends suspended found word, written, got, memory, platform, outside, noReport, rfl⟩

/-- Settles O45: the step of a core that is held is the next move of the script, of which the frame is known. -/
theorem suspendedCoreIsHeld : Obligations.SuspendedCoreIsHeld := by
  intro s c ch found blocked
  have held : step s = .next (letEnvMove s) := by
    rcases blocked with ⟨v, suspended, full⟩ | ⟨k, suspended, empty⟩
    · exact step_suspendedSend_held suspended found full
    · exact step_suspendedRecv_held suspended found empty
  obtain ⟨regs, mem, -, -, runState, reports, sent, -, -, env, -⟩ := letEnvMove_frame s
  rw [held]
  refine ⟨fun script => ?_, fun m rest script => ?_, _, rfl, runState, regs, mem, reports, sent, env⟩
  · rw [letEnvMove_nil script]
  · rw [letEnvMove_cons script]

/-! ### A move of the peripheral, and then the end (40_fetch_execute.md, section 5) -/

section Lifted
variable {s : State} {c : Byte} {f : Channel → Channel} {rest : List EnvMove}

/-- The state after the peripheral of channel `c` has made its move `f`, the first of the script. -/
def peripheralMoved (c : Byte) (f : Channel → Channel) (rest : List EnvMove) (s : State) : State :=
  ({ s with env := rest } : State).updateChannel c f

theorem letEnvMove_offer {v : Word} (script : s.env = .offer c v :: rest) :
    letEnvMove s = peripheralMoved c (Channel.offer v) rest s := letEnvMove_cons script

theorem letEnvMove_take (script : s.env = .take c :: rest) :
    letEnvMove s = peripheralMoved c Channel.take rest s := letEnvMove_cons script

variable {ch : Channel} (params : ∀ x : Channel, (f x).params = x.params)
include params

theorem peripheralMoved_self (found : s.channel? c = some ch) : (peripheralMoved c f rest s).channel? c = some (f ch) :=
  channel_updateChannel_self { s with env := rest } c f ch params found

theorem peripheralMoved_ne {c' : Byte} (other : c' ≠ c) : (peripheralMoved c f rest s).channel? c' = s.channel? c' :=
  channel_updateChannel_ne { s with env := rest } c c' f params other

theorem samePlatform_peripheralMoved {t : State} (h : SamePlatform (peripheralMoved c f rest s) t) : SamePlatform s t := by
  obtain ⟨cfg, boot, channels⟩ := h
  exact ⟨cfg, boot, channels.trans (params_updateChannel { s with env := rest } c f params)⟩

theorem sendWord_peripheralMoved (v : Word) (found : s.channel? c = some ch) {t : State}
    (ends : t = retired 1 (sendWord c v (peripheralMoved c f rest s))) :
    OnlyAdvanced 1 s t ∧ SentOn c (f ch) v s t ∧ SameMemory s t ∧ SamePlatform s t ∧ NoReport s t ∧ t.env = rest ∧
    t.runState = .waiting := by
  obtain ⟨advanced, ⟨self, others, sent⟩, memory, platform, -, noReport⟩ :=
    retired_sendWord_spec _ c (f ch) v (peripheralMoved_self (rest := rest) params found)
  rw [ends]
  exact ⟨advanced, ⟨self, fun c' other => (others c' other).trans (peripheralMoved_ne params other), sent⟩, memory,
    samePlatform_peripheralMoved params platform, noReport, rfl, rfl⟩

theorem received_peripheralMoved (k : Reg) {v : Word} {left : List Word} (found : s.channel? c = some ch)
    (word : (f ch).inbound = v :: left) {t : State} (ends : t = retired 1 (received c k v (peripheralMoved c f rest s))) :
    RegWritten k v 1 s t ∧ ReceivedOn c (f ch) left s t ∧ SameMemory s t ∧ SamePlatform s t ∧ NoReport s t ∧
    t.env = rest ∧ t.runState = .waiting := by
  obtain ⟨written, ⟨self, others, sent⟩, memory, platform, -, noReport⟩ :=
    retired_received_spec _ c (f ch) k v left (peripheralMoved_self (rest := rest) params found) word
  rw [ends]
  exact ⟨written, ⟨self, fun c' other => (others c' other).trans (peripheralMoved_ne params other), sent⟩, memory,
    samePlatform_peripheralMoved params platform, noReport, rfl, rfl⟩

end Lifted

theorem runsTo_two {s t u : State} (first : step s = .next t) (second : step t = .next u) : RunsTo 2 s u :=
  runsTo_succ first (runsTo_succ second (runsTo_zero u))

/-- A suspended SBUS whose channel accepts after its peripheral's take. -/
theorem runsTo_sent_of_take {s : State} {c : Byte} {ch : Channel} {rest : List EnvMove} {v : Word}
    (found : s.channel? c = some ch) (suspended : s.runState = .suspendedSend c v) (full : ¬ch.Accepts)
    (script : s.env = .take c :: rest) (accepts : ch.take.Accepts) :
    RunsTo 2 s (retired 1 (sendWord c v (peripheralMoved c Channel.take rest s))) := by
  refine runsTo_two (t := peripheralMoved c Channel.take rest s) ?_ ?_
  · rw [step_suspendedSend_held suspended found full, letEnvMove_take script]
  · exact step_suspendedSend_ends suspended (peripheralMoved_self Channel.take_params found) accepts

/-- Settles O46: an offer to an empty channel leaves the word to receive; a take leaves room in the buffer, or, for capacity 0,
the peripheral receiving. The second step is the end of the suspension. -/
theorem thePeripheralLiftsTheHold : Obligations.ThePeripheralLiftsTheHold := by
  refine fun s c ch rest found => ⟨fun k v suspended empty script => ?offered,
    fun v w out suspended full outbound room script => ?roomMade, fun v suspended full empty capacity script => ?receives⟩
  case offered =>
    have offered : ch.offer v = { ch with inbound := [v] } := by simp [Channel.offer, empty]
    have word : (ch.offer v).inbound = [v] := by rw [offered]
    have after := received_peripheralMoved (rest := rest) (Channel.offer_params v) k found word rfl
    rw [offered] at after
    refine ⟨_, runsTo_two (t := peripheralMoved c (Channel.offer v) rest s) ?_ ?_, after⟩
    · rw [step_suspendedRecv_held suspended found empty, letEnvMove_offer script]
    · exact step_suspendedRecv_ends suspended (peripheralMoved_self (Channel.offer_params v) found) word
  case roomMade =>
    have taken : ch.take = { ch with outbound := out } := by simp [Channel.take, outbound]
    have accepts : ch.take.Accepts := .inl (by rw [taken]; exact room)
    have after := sendWord_peripheralMoved (rest := rest) Channel.take_params v found rfl
    rw [taken] at after
    exact ⟨_, runsTo_sent_of_take found suspended full script accepts, after⟩
  case receives =>
    have taken : ch.take = { ch with receiving := true } := by simp [Channel.take, empty, capacity]
    have accepts : ch.take.Accepts := .inr (by rw [taken]; exact ⟨capacity, rfl⟩)
    have after := sendWord_peripheralMoved (rest := rest) Channel.take_params v found rfl
    rw [taken] at after
    exact ⟨_, runsTo_sent_of_take found suspended full script accepts, after⟩

end Sys2Proof.Machine
end

section
/-! PROOFS. The instruction pointer after an instruction (40_fetch_execute.md, section 3): the advance modulo 2^16, and register
15 as a destination. -/

namespace Sys2Proof.Machine

/-! ### The advance -/

/-- Where the answer `r` from `s` is at the wait point, with register 15 not the destination `d` or with a report made, the
instruction pointer is `w` further on, modulo 2^16. -/
def AdvancesMod (w : Nat) (d : Option Reg) (s : State) (r : Result) : Prop :=
  ∀ t, r = .next t → t.runState = .waiting → d ≠ some ipReg ∨ t.reports ≠ s.reports →
    t.ip.toNat = (s.ip.toNat + w) % 65536

section Advance
variable {w : Nat} {d : Option Reg} {s u : State}

theorem advancesMod_retire (ip : u.ip = s.ip) : AdvancesMod w d s (retire w u) := by
  rintro _ ⟨⟩ - -
  rw [ip_retired, ip]

theorem advancesMod_retire_setReg (a : Reg) (v : Word) (ip : u.ip = s.ip) (reports : u.reports = s.reports) :
    AdvancesMod w (some a) s (retire w (u.setReg a v)) := by
  rintro _ ⟨⟩ - (other | reported)
  · rw [ip_retired, ip_setReg, if_neg fun same => other (congrArg some same), ip]
  · exact absurd reports reported

theorem advancesMod_takeFault (op : Option Nibble) (f : InstrFault) : AdvancesMod w d s (takeFault op f w s) := by
  rintro _ ⟨⟩ - -
  exact ip_faulted ..

theorem advancesMod_suspend {r : RunState} (suspended : r ≠ .waiting) : AdvancesMod w d s (.next (suspend r s)) := by
  rintro _ ⟨⟩ waiting
  exact absurd waiting suspended

theorem advancesMod_fault (f : Fault) : AdvancesMod w d s (.fault f) := nofun

theorem advancesMod_jumpIf {taken : Bool} (c : Reg) (target : taken = true → d = some ipReg) :
    AdvancesMod 2 d s (jumpIf taken c s) := by
  cases taken with
  | false => exact advancesMod_retire rfl
  | true =>
    rintro _ ⟨⟩ - (other | reported)
    · exact absurd (target rfl) other
    · exact absurd rfl reported

end Advance

section Meanings
variable (a b c : Reg) (s : State)

theorem advancesMod_load (c : Nibble) : AdvancesMod 2 (some a) s (exec (.load a b c) s) := by
  rcases access_cases b c s with ⟨rfl, inside⟩ | ⟨byteForm, inside⟩ | outside
  · rw [exec_load_word a b inside]
    exact advancesMod_retire_setReg a _ rfl rfl
  · rw [exec_load_byte a b byteForm inside]
    exact advancesMod_retire_setReg a _ rfl rfl
  · rw [exec_load_fault a b outside]
    exact advancesMod_takeFault _ _

theorem advancesMod_store (c : Nibble) : AdvancesMod 2 none s (exec (.store a b c) s) := by
  rcases access_cases b c s with ⟨rfl, inside⟩ | ⟨byteForm, inside⟩ | outside
  · rw [exec_store_word a b inside]
    exact advancesMod_retire rfl
  · rw [exec_store_byte a b byteForm inside]
    exact advancesMod_retire rfl
  · rw [exec_store_fault a b outside]
    exact advancesMod_takeFault (some 1) _

theorem advancesMod_set (imm : Word) : AdvancesMod 3 (some a) s (exec (.set a imm) s) := by
  rcases Nat.lt_or_ge (s.ip.toNat + 2) s.cfg.memSize with inside | outside
  · rw [exec_set_ok a imm inside]
    exact advancesMod_retire_setReg a imm rfl rfl
  · rw [exec_set_fault a imm outside]
    exact advancesMod_takeFault _ _

theorem advancesMod_wbus : AdvancesMod 1 (dataReg (lowByte (s.reg a))) s (exec (.wbus a) s) := by
  rcases dataReg_cases (lowByte (s.reg a)) with ⟨bad, -⟩ | ⟨-, k, named⟩
  · rw [exec_bad_data_register rfl bad]
    exact advancesMod_fault _
  · rw [exec, execWbus_eq a s k named, named]
    exact advancesMod_retire_setReg k _ rfl rfl

theorem advancesMod_sbus : AdvancesMod 1 none s (exec (.sbus a) s) := by
  rcases dataReg_cases (lowByte (s.reg a)) with ⟨bad, -⟩ | ⟨-, k, named⟩
  · rw [exec_bad_data_register rfl bad]
    exact advancesMod_fault _
  · rw [exec, execSbus_eq a s k named]
    rcases busSend_cases (highByte (s.reg a)) (s.reg k) s with ⟨-, send⟩ | ⟨ch, -, -, send⟩ | ⟨ch, -, -, send⟩ <;> rw [send]
    · exact advancesMod_takeFault _ _
    · exact advancesMod_suspend nofun
    · exact advancesMod_retire rfl

theorem advancesMod_rbus : AdvancesMod 1 (dataReg (lowByte (s.reg a))) s (exec (.rbus a) s) := by
  rcases dataReg_cases (lowByte (s.reg a)) with ⟨bad, -⟩ | ⟨-, k, named⟩
  · rw [exec_bad_data_register rfl bad]
    exact advancesMod_fault _
  · rw [exec, execRbus_eq a s k named, named]
    rcases busRecv_cases (highByte (s.reg a)) s with ⟨-, recv⟩ | ⟨ch, -, -, recv⟩ | ⟨ch, v, rest, -, -, recv⟩ <;> rw [recv]
    · exact advancesMod_takeFault _ _
    · exact advancesMod_suspend nofun
    · exact advancesMod_retire_setReg k v rfl rfl

theorem exec_advancesMod (i : Instr) : AdvancesMod (encode i).length (destination i s) s (exec i s) := by
  cases i with
  | load a b c => exact advancesMod_load a b s c
  | store a b c => exact advancesMod_store a b s c
  | set a imm => exact advancesMod_set a s imm
  | wbus a => exact advancesMod_wbus a s
  | sbus a => exact advancesMod_sbus a s
  | rbus a => exact advancesMod_rbus a s
  | ljump a b c => exact advancesMod_jumpIf c fun taken => if_pos ((lessUnsigned_eq_true _ _).1 taken)
  | ejump a b c => exact advancesMod_jumpIf c fun taken => if_pos ((allBitsEqual_eq_true _ _).1 taken)
  | add a b c | sub a b c | shl a b c | shr a b c | and a b c | or a b c | not a b c | xor a b c =>
    exact advancesMod_retire_setReg a _ rfl rfl

end Meanings

/-- A core whose suspension has ended is one byte on; one that has made a move instead is still suspended. -/
theorem ip_of_suspension_ended {s t : State} {c : Byte} (answer : step s = .next t) (waiting : t.runState = .waiting)
    (suspended : (∃ v, s.runState = .suspendedSend c v) ∨ ∃ k, s.runState = .suspendedRecv c k ∧ k ≠ ipReg) :
    t.ip.toNat = (s.ip.toNat + 1) % 65536 := by
  have ended {P : Prop} (held : step s = .next (letEnvMove s)) : P := by
    cases answer.symm.trans held
    rw [letEnvMove_runState] at waiting
    rcases suspended with ⟨v, suspended⟩ | ⟨k, suspended, -⟩ <;> cases suspended.symm.trans waiting
  rcases suspended with ⟨v, suspended⟩ | ⟨k, suspended, other⟩
  · rcases step_suspendedSend_cases suspended with ends | held
    · cases answer.symm.trans ends
      rw [ip_retired, sendWord_ip]
    · exact ended held
  · rcases step_suspendedRecv_cases suspended with ⟨v, ends⟩ | held
    · cases answer.symm.trans ends
      rw [ip_retired, received, ip_setReg, if_neg other, updateChannel_ip]
    · exact ended held

/-- Settles O57: each meaning ends in one of the shared ends, whose advance is modulo 2^16, by the length of its encoding. -/
theorem ipAdvanceWraps : Obligations.IpAdvanceWraps :=
  ⟨fun s w => ⟨ip_retired w s, fun op f => ip_faulted op f w s⟩, fun i s => exec_advancesMod s i,
    fun _ _ _ answer waiting suspended => ip_of_suspension_ended answer waiting suspended⟩

/-! ### Register 15 as the destination -/

theorem alu_answers : ∀ mk ∈ ([.add, .sub, .shl, .shr, .and, .or, .not, .xor] : List (Reg → Reg → Reg → Instr)),
    ∃ value : Reg → Reg → State → Word, ∀ a b c s, exec (mk a b c) s = retire 2 (s.setReg a (value b c s)) := by
  simp only [List.mem_cons, List.not_mem_nil, or_false]
  rintro mk (rfl | rfl | rfl | rfl | rfl | rfl | rfl | rfl) <;> exact ⟨_, fun _ _ _ _ => rfl⟩

theorem ip_of_retire_setReg_ipReg {r : Result} {s : State} {v : Word} {w : Nat} (answer : r = retire w (s.setReg ipReg v)) :
    ∃ t, r = .next t ∧ t.ip.toNat = (v.toNat + w) % 65536 :=
  ⟨_, answer, ip_retired_setReg v w s⟩

theorem toNat_wordOf_zero (b : Byte) : (wordOf 0 b).toNat = b.toNat := by
  rw [toNat_wordOf, show (0 : Byte).toNat = 0 from rfl, Nat.zero_mul, Nat.zero_add]

/-- Settles O58: the value goes to register 15 like to any other, and the advance then reads it from there. -/
theorem destinationFifteenIsAJump : Obligations.DestinationFifteenIsAJump := by
  refine ⟨fun mk hmk a b c s other => ?alu, fun b s => ⟨fun imm inside => ?set, fun inside => ?loadWord,
    fun c byteForm inside => ?loadByte, fun named empty => ?wbusEmpty, fun named ready => ?wbusReady,
    fun named ch v rest found word => ?rbus, fun c ch v rest suspended found word => ?suspendedRbus⟩⟩
  case alu =>
    obtain ⟨value, answers⟩ := alu_answers mk hmk
    refine ⟨_, _, answers ipReg b c s, answers a b c s, ?_⟩
    rw [ip_retired_setReg, reg_retired_ne 2 _ other, reg_setReg_self]
  case set => exact ip_of_retire_setReg_ipReg (exec_set_ok ipReg imm inside)
  case loadWord =>
    rw [← toNat_wordOf]
    exact ip_of_retire_setReg_ipReg (exec_load_word ipReg b inside)
  case loadByte =>
    rw [← toNat_wordOf]
    exact ip_of_retire_setReg_ipReg (exec_load_byte ipReg b byteForm inside)
  case wbusEmpty =>
    obtain ⟨noData, -⟩ := whichWord_spec s
    obtain ⟨t, answer, ip⟩ := ip_of_retire_setReg_ipReg (exec_wbus (k := ipReg) named)
    exact ⟨t, answer, by rw [ip, noData empty]; rfl⟩
  case wbusReady =>
    obtain ⟨-, some⟩ := whichWord_spec s
    obtain ⟨ch, mem, data, value⟩ := some ready
    obtain ⟨t, answer, ip⟩ := ip_of_retire_setReg_ipReg (exec_wbus (k := ipReg) named)
    refine ⟨t, answer, ch, mem, data, ?_⟩
    have byte : ch.params.addr.toNat < 256 := ch.params.addr.isLt
    rw [ip, value, toNat_wordOf_zero]
    omega
  case rbus => exact ip_of_retire_setReg_ipReg (exec_rbus_receives (k := ipReg) named found word)
  case suspendedRbus => exact ip_of_retire_setReg_ipReg (step_suspendedRecv_ends suspended found word)

end Sys2Proof.Machine
end

section
/-! PROOFS. What no instruction can see (10_state.md, sections 3, 8 and 9): two states alike in registers, memory and channels
answer alike. -/

namespace Sys2Proof.Machine

/-! ### Reads agree -/

namespace SameVisible
variable {s t : State}

theorem reg (h : SameVisible s t) (r : Reg) : t.reg r = s.reg r := by
  obtain ⟨regs, -⟩ := h
  simp only [State.reg, regs]

theorem ip (h : SameVisible s t) : t.ip = s.ip := h.reg ipReg

theorem byteAt (h : SameVisible s t) (a : Nat) : t.byteAt a = s.byteAt a := by
  obtain ⟨-, mem, -⟩ := h
  rw [State.byteAt, mem, State.byteAt]

theorem memSize (h : SameVisible s t) : t.cfg.memSize = s.cfg.memSize := by
  obtain ⟨-, -, size, -⟩ := h
  exact size

theorem channel (h : SameVisible s t) (c : Byte) : t.channel? c = s.channel? c := by
  obtain ⟨-, -, -, channels, -⟩ := h
  rw [State.channel?, channels, State.channel?]

theorem busWhich (h : SameVisible s t) : busWhich t = busWhich s := by
  obtain ⟨-, -, -, channels, count⟩ := h
  simp only [Machine.busWhich, State.ready, channels, count]

/-! ### Operations keep the agreement -/

theorem setReg (h : SameVisible s t) (r : Reg) (v : Word) : SameVisible (s.setReg r v) (t.setReg r v) := by
  obtain ⟨regs, others⟩ := h
  exact ⟨by rw [setReg_regs, setReg_regs, regs], others⟩

theorem setByte (h : SameVisible s t) (a : Nat) (b : Byte) : SameVisible (s.setByte a b) (t.setByte a b) := by
  obtain ⟨regs, mem, others⟩ := h
  exact ⟨regs, by rw [setByte_mem, setByte_mem, mem], others⟩

theorem updateChannel (h : SameVisible s t) (c : Byte) (f : Channel → Channel) :
    SameVisible (s.updateChannel c f) (t.updateChannel c f) := by
  obtain ⟨regs, mem, size, channels, count⟩ := h
  exact ⟨regs, mem, size, by rw [updateChannel_channels, updateChannel_channels, channels], count⟩

theorem whichAsked (h : SameVisible s t) : SameVisible (whichAsked s) (whichAsked t) := by
  obtain ⟨regs, mem, size, channels, count⟩ := h
  exact ⟨regs, mem, size, channels, congrArg (· + 1) count⟩

theorem sendWord (h : SameVisible s t) (c : Byte) (v : Word) : SameVisible (sendWord c v s) (sendWord c v t) :=
  h.updateChannel c (Channel.accept v)

theorem advanceIp (h : SameVisible s t) (w : Nat) : SameVisible (advanceIp w s) (advanceIp w t) := by
  rw [Machine.advanceIp, Machine.advanceIp, h.ip]
  exact h.setReg ipReg _

end SameVisible

/-! ### Answers agree -/

/-- The answers stop alike, or go on to states that agree again. -/
def AnswerAlike (r₁ r₂ : Result) : Prop :=
  (∀ f, r₁ = .fault f → r₂ = .fault f) ∧ ∀ t₁, r₁ = .next t₁ → ∃ t₂, r₂ = .next t₂ ∧ SameVisible t₁ t₂

section Answers
variable {s t : State}

theorem answerAlike_next (h : SameVisible s t) : AnswerAlike (.next s) (.next t) :=
  ⟨nofun, fun _ ends => ⟨t, rfl, Host.Outcome.next.inj ends ▸ h⟩⟩

theorem answerAlike_retire (h : SameVisible s t) (w : Nat) : AnswerAlike (retire w s) (retire w t) :=
  answerAlike_next (h.advanceIp w)

theorem answerAlike_takeFault (h : SameVisible s t) (op : Option Nibble) (f : InstrFault) (w : Nat) :
    AnswerAlike (takeFault op f w s) (takeFault op f w t) :=
  answerAlike_next (h.advanceIp w)

theorem answerAlike_fault (f : Fault) : AnswerAlike (.fault f) (.fault f) := ⟨fun _ same => same, nofun⟩

theorem answerAlike_jumpIf (h : SameVisible s t) (taken : Bool) (c : Reg) :
    AnswerAlike (jumpIf taken c s) (jumpIf taken c t) := by
  cases taken with
  | false => exact answerAlike_retire h 2
  | true =>
    rw [jumpIf, jumpIf, h.reg]
    exact answerAlike_retire (h.setReg ipReg _) 0

variable (a b c : Reg)

theorem answerAlike_load (h : SameVisible s t) (c : Nibble) : AnswerAlike (exec (.load a b c) s) (exec (.load a b c) t) := by
  rcases access_cases b c s with ⟨rfl, inside⟩ | ⟨byteForm, inside⟩ | outside
  · rw [exec_load_word a b inside, exec_load_word a b (by rwa [h.reg, h.memSize]), h.reg, h.byteAt, h.byteAt]
    exact answerAlike_retire (h.setReg a _) 2
  · rw [exec_load_byte a b byteForm inside, exec_load_byte a b byteForm (by rwa [h.reg, h.memSize]), h.reg, h.reg, h.byteAt]
    exact answerAlike_retire (h.setReg a _) 2
  · rw [exec_load_fault a b outside, exec_load_fault a b (by rwa [h.reg, h.memSize]), h.reg]
    exact answerAlike_takeFault h ..

theorem answerAlike_store (h : SameVisible s t) (c : Nibble) :
    AnswerAlike (exec (.store a b c) s) (exec (.store a b c) t) := by
  rcases access_cases b c s with ⟨rfl, inside⟩ | ⟨byteForm, inside⟩ | outside
  · rw [exec_store_word a b inside, exec_store_word a b (by rwa [h.reg, h.memSize]), h.reg, h.reg]
    exact answerAlike_retire ((h.setByte _ _).setByte _ _) 2
  · rw [exec_store_byte a b byteForm inside, exec_store_byte a b byteForm (by rwa [h.reg, h.memSize]), h.reg, h.reg]
    exact answerAlike_retire (h.setByte _ _) 2
  · rw [exec_store_fault a b outside, exec_store_fault a b (by rwa [h.reg, h.memSize]), h.reg]
    exact answerAlike_takeFault h (some 1) _ 2

theorem answerAlike_set (h : SameVisible s t) (imm : Word) : AnswerAlike (exec (.set a imm) s) (exec (.set a imm) t) := by
  rcases Nat.lt_or_ge (s.ip.toNat + 2) s.cfg.memSize with inside | outside
  · rw [exec_set_ok a imm inside, exec_set_ok a imm (by rwa [h.ip, h.memSize])]
    exact answerAlike_retire (h.setReg a imm) 3
  · rw [exec_set_fault a imm outside, exec_set_fault a imm (by rwa [h.ip, h.memSize]), h.ip]
    exact answerAlike_takeFault h ..

/-- The three bus instructions stop alike on a bad data register; on a register `k` it is left to show that they answer
alike. -/
theorem answerAlike_bus {i : Instr} (h : SameVisible s t) (bus : driver i = some a)
    (named : ∀ k, dataReg (lowByte (s.reg a)) = some k → AnswerAlike (exec i s) (exec i t)) :
    AnswerAlike (exec i s) (exec i t) := by
  rcases dataReg_cases (lowByte (s.reg a)) with ⟨bad, -⟩ | ⟨-, k, hk⟩
  · rw [exec_bad_data_register bus bad, exec_bad_data_register bus (by rwa [h.reg]), h.reg]
    exact answerAlike_fault _
  · exact named k hk

theorem answerAlike_wbus (h : SameVisible s t) : AnswerAlike (exec (.wbus a) s) (exec (.wbus a) t) := by
  refine answerAlike_bus a h rfl fun k hk => ?_
  rw [exec, exec, execWbus_eq a s k hk, execWbus_eq a t k (by rwa [h.reg]), h.busWhich]
  exact answerAlike_retire (h.whichAsked.setReg k _) 1

theorem answerAlike_sbus (h : SameVisible s t) : AnswerAlike (exec (.sbus a) s) (exec (.sbus a) t) := by
  refine answerAlike_bus a h rfl fun k hk => ?_
  rw [exec, exec, execSbus_eq a s k hk, execSbus_eq a t k (by rwa [h.reg]), h.reg, h.reg]
  rcases busSend_cases (highByte (s.reg a)) (s.reg k) s with ⟨unknown, send⟩ | ⟨ch, found, full, send⟩ | ⟨ch, found, room, send⟩
  · rw [send, busSend_unknown t _ _ ((h.channel _).trans unknown)]
    exact answerAlike_takeFault h ..
  · rw [send, busSend_blocked t _ _ ch ((h.channel _).trans found) full]
    exact answerAlike_next h
  · rw [send, busSend_done t _ _ ch ((h.channel _).trans found) room]
    exact answerAlike_retire (h.sendWord _ _) 1

theorem answerAlike_rbus (h : SameVisible s t) : AnswerAlike (exec (.rbus a) s) (exec (.rbus a) t) := by
  refine answerAlike_bus a h rfl fun k hk => ?_
  rw [exec, exec, execRbus_eq a s k hk, execRbus_eq a t k (by rwa [h.reg]), h.reg]
  rcases busRecv_cases (highByte (s.reg a)) s with ⟨unknown, recv⟩ | ⟨ch, found, empty, recv⟩ | ⟨ch, v, rest, found, word, recv⟩
  · rw [recv, busRecv_unknown t _ ((h.channel _).trans unknown)]
    exact answerAlike_takeFault h ..
  · rw [recv, busRecv_blocked t _ ch ((h.channel _).trans found) empty]
    exact answerAlike_next h
  · rw [recv, busRecv_done t _ ch v rest ((h.channel _).trans found) word]
    exact answerAlike_retire ((h.updateChannel _ _).setReg k v) 1

theorem answerAlike_aluResult (h : SameVisible s t) (v : Word → Word → Word) :
    AnswerAlike (aluResult a (v (s.reg b) (s.reg c)) s) (aluResult a (v (t.reg b) (t.reg c)) t) := by
  rw [h.reg, h.reg]
  exact answerAlike_retire (h.setReg a _) 2

end Answers

/-- Settles O29: each meaning reads registers, memory and channels only, and ends in operations that keep their agreement. -/
theorem instructionsCannotSeeTheOutside : Obligations.InstructionsCannotSeeTheOutside := by
  intro i s₁ s₂ h
  suffices AnswerAlike (exec i s₁) (exec i s₂) from this
  cases i with
  | load a b c => exact answerAlike_load a b h c
  | store a b c => exact answerAlike_store a b h c
  | set a imm => exact answerAlike_set a h imm
  | wbus a => exact answerAlike_wbus a h
  | sbus a => exact answerAlike_sbus a h
  | rbus a => exact answerAlike_rbus a h
  | ljump a b c =>
    rw [exec, exec, execLjump, execLjump, h.reg, h.reg]
    exact answerAlike_jumpIf h _ c
  | ejump a b c =>
    rw [exec, exec, execEjump, execEjump, h.reg, h.reg]
    exact answerAlike_jumpIf h _ c
  | add a b c => exact answerAlike_aluResult a b c h aluAdd
  | sub a b c => exact answerAlike_aluResult a b c h aluSub
  | shl a b c => exact answerAlike_aluResult a b c h aluShl
  | shr a b c => exact answerAlike_aluResult a b c h aluShr
  | and a b c => exact answerAlike_aluResult a b c h (· &&& ·)
  | or a b c => exact answerAlike_aluResult a b c h (· ||| ·)
  | not a b c => exact answerAlike_aluResult a b b h fun x _ => x ^^^ 0xFFFF
  | xor a b c => exact answerAlike_aluResult a b c h (· ^^^ ·)

end Sys2Proof.Machine
end
